-- ==== Sys2Proof/Word.lean ====
section
/-! DEFINITION. The word types of the block (00_scope.md R15, R16): bytes, the 16-bit fields of port C, and the
byte records of the output ports. Coordinates, indices and counts are plain naturals (R16). -/

namespace Sys2Proof

/-- A framebuffer, report, command, glyph or record byte (R16). -/
abbrev Byte := BitVec 8

/-- A u16 field of port C (R73). -/
abbrev U16 := BitVec 16

/-- One record of an output port (R34): a display message, a response, an LED request or an error record. -/
abbrev Record := List Byte

end Sys2Proof
end

