-- ==== Sys2Proof/Config.lean ====
section
/-! DEFINITION. What is fixed before reset (10_state.md R36; 00_scope.md R9 to R14) and the free values: what the
spec leaves to the environment (93_implementation_defined.md U10, U11) or states no value for. A free value is an
opaque constant, so no proof can see what it is. -/

namespace Sys2Proof

/-- Bound-check mode `P_BOUND` (R11). -/
inductive BoundMode
  /-- The source's check: a coordinate equal to the width or height passes. -/
  | compat
  /-- The permitted documented deviation. -/
  | strict
  deriving DecidableEq, Repr

/-- The configuration record (R36) and the host's `PAD_N` (R14). No step changes it. Parameters the spec leaves
OPEN are plain fields, so that a statement about every state is a statement about every value of them. -/
structure Config where
  /-- `W` (R9). -/
  width : Nat
  /-- `H` (R9). -/
  height : Nat
  /-- `P_BOUND` (R11). -/
  bound : BoundMode
  /-- `FONT`, the glyph of code `0x20 + j` at place `j` (R10). -/
  font : List (List Byte)
  /-- `P_ADVANCE`, the column pitch of a print (R10). -/
  advance : Nat
  /-- `BUTTON_COUNT` (R12). -/
  buttonCount : Nat
  /-- `NONE_INDEX`, or no sentinel (R12). -/
  noneIndex : Option Nat
  /-- `SHIFT_INDEX` (R12). -/
  shiftIndex : Nat
  /-- `PAD_MIN` (R13). -/
  padMin : Nat
  /-- `PAD_THR` (R13). -/
  padThr : Nat
  /-- `EVQ_CAP` (R14). -/
  evqCap : Nat
  /-- `INIT_IMAGE` when one is configured (R14, R23). -/
  initImage : Option (List Byte)
  /-- `PAD_N`, the host's pad sampling modulus, at least 1 (R14, R217, D30). -/
  padN : { n : Nat // 1 ≤ n }
  deriving DecidableEq, Repr

/-- The transport's answer to one display message, `ack(k)` (R142). -/
inductive Ack
  | accepted
  | refused
  deriving DecidableEq, Repr, Inhabited

/-- What one transport read returns (R218): some bytes, possibly none, or an error. -/
inductive ReadResult
  | bytes (bs : List Byte)
  | error
  deriving DecidableEq, Repr, Inhabited

/-- FREE VALUE (U10, log 6): the transport's answer to the display message of the given draw number. -/
opaque Config.freeAck : Nat → Ack

/-- FREE VALUE (U11, log 6): the result of the transport read of the given draw number. -/
opaque Config.freeRead : Nat → ReadResult

/-- FREE VALUE (log 9): the info field of the given width that a fault record shows for a number that does not fit
it; the spec states the field's width and no value for such a number (R190, R16). -/
opaque Config.freeField : (width : Nat) → Nat → BitVec width

/-- FREE VALUE (log 10): byte `i` of the framebuffer after a reset whose `INIT_IMAGE` has a wrong length while an
earlier configuration constraint is the one reported (R230, R232). -/
opaque Config.freeImageByte : Nat → Byte

end Sys2Proof
end

