-- ==== Sys2Proof/Syntax.lean ====
section
/-! DEFINITION. The items of the two input ports and the instructions they decode to: one constructor for each row
of spec/opcode_table.json (30_encoding.md R74, R80). -/

namespace Sys2Proof

/-- One instruction: a command of port C or a report of port R. Payloads are the report's bytes after the tag. -/
inductive Instr
  /-- `SETPX.OFF x, y` (R101). -/
  | setpxOff (x y : U16)
  /-- `SETPX.ON x, y` (R101). -/
  | setpxOn (x y : U16)
  /-- `GETPX x, y` (R102). -/
  | getpx (x y : U16)
  /-- `FILL.OFF` (R103). -/
  | fillOff
  /-- `FILL.ON` (R103). -/
  | fillOn
  /-- `INVERT` (R104). -/
  | invert
  /-- `INVROW row` (R105). -/
  | invrow (row : U16)
  /-- `CLRDIRTY` (R107). -/
  | clrdirty
  /-- `COPY d[0..n-1]` (R106); `n` is the number of data bytes. -/
  | copy (data : List Byte)
  /-- `PRCHAR.OFF c, row, col` (R131). -/
  | prcharOff (c : Byte) (row col : U16)
  /-- `PRCHAR.ON c, row, col` (R131). -/
  | prcharOn (c : Byte) (row col : U16)
  /-- `PRINT.OFF row, col, "t"` (R133). -/
  | printOff (row col : U16) (text : List Byte)
  /-- `PRINT.ON row, col, "t"` (R133). -/
  | printOn (row col : U16) (text : List Byte)
  /-- `FLUSH` (R142). -/
  | flush
  /-- `RDSTAT` (R112). -/
  | rdstat
  /-- `POPEV` (R165). -/
  | popev
  /-- `RPT.BTN`: a report with tag `0x01` (R150, R151). -/
  | rptBtn (payload : List Byte)
  /-- `RPT.PAD`: a report with tag `0x20` (R159, R160). -/
  | rptPad (payload : List Byte)
  /-- `RPT.IGNORED`: a report with any other tag, or an empty one (R164); the whole report. -/
  | rptIgnored (report : List Byte)
  deriving DecidableEq, Repr

/-- One framed byte string as the host delivers it (R70, R79). -/
inductive Item
  /-- A command on port C. -/
  | command (bytes : List Byte)
  /-- A report on port R. -/
  | report (bytes : List Byte)
  deriving DecidableEq, Repr

/-- Why a command is no instruction (R76, R77). -/
inductive DecodeError
  /-- The opcode byte is reserved (R76). -/
  | illegal (op : Byte)
  /-- The length is not the one R75 gives for the opcode (R77); an empty command has opcode `0x00`. -/
  | malformed (op : Byte) (length : Nat)
  deriving DecidableEq, Repr

/-- The six command formats (R72). -/
inductive Format
  | c1 | cxy | cr | cg | ct | cb
  deriving DecidableEq, Repr

/-- The one-command pseudo-instructions (R95); `DRAIN` is an action of the host. -/
inductive Pseudo
  | clear
  | set (x y : U16)
  | clr (x y : U16)
  deriving DecidableEq, Repr

end Sys2Proof
end

