-- ==== Sys2Proof/WellFormed.lean ====
section
/-! DEFINITION. Which instruction terms have an encoding (30_encoding.md R72, R79, R80). -/

namespace Sys2Proof

/-- A term has an encoding when its byte count fits the count field of its format (u16 in `CB`, u8 in `CT`, R72)
and an ignored report has neither of the two routed tags (R80). Every other field fits by its type. -/
def Instr.wellFormed : Instr → Bool
  | .copy data => decide (data.length < 65536)
  | .printOff _ _ text => decide (text.length < 256)
  | .printOn _ _ text => decide (text.length < 256)
  | .rptIgnored (tag :: _) => decide (tag ≠ 0x01#8) && decide (tag ≠ 0x20#8)
  | .rptIgnored [] => true
  | .setpxOff _ _ => true
  | .setpxOn _ _ => true
  | .getpx _ _ => true
  | .fillOff => true
  | .fillOn => true
  | .invert => true
  | .invrow _ => true
  | .clrdirty => true
  | .prcharOff _ _ _ => true
  | .prcharOn _ _ _ => true
  | .flush => true
  | .rdstat => true
  | .popev => true
  | .rptBtn _ => true
  | .rptPad _ => true

end Sys2Proof
end

