-- ==== Sys2Proof/Decode.lean ====
section
/-! DEFINITION. Decoding and encoding of commands and reports (30_encoding.md R70 to R82), total on every byte
string. -/

namespace Sys2Proof

/-- A u16 field from its two bytes, low byte first (R73). -/
def u16 (b0 b1 : Byte) : U16 := b0.setWidth 16 ||| (b1.setWidth 16 <<< 8)

/-- The low byte of a u16 field (R72). -/
def lowByte (v : U16) : Byte := v.setWidth 8

/-- The high byte of a u16 field (R72). -/
def highByte (v : U16) : Byte := (v >>> 8).setWidth 8

/-- Format `C1`: no byte after the opcode. -/
def decodeC1 (i : Instr) : List Byte → Option Instr
  | [] => some i
  | _ => none

/-- Format `CXY`: two u16 fields. -/
def decodeCXY (mk : U16 → U16 → Instr) : List Byte → Option Instr
  | [x0, x1, y0, y1] => some (mk (u16 x0 x1) (u16 y0 y1))
  | _ => none

/-- Format `CR`: one u16 field. -/
def decodeCR (mk : U16 → Instr) : List Byte → Option Instr
  | [r0, r1] => some (mk (u16 r0 r1))
  | _ => none

/-- Format `CG`: a code byte and two u16 fields. -/
def decodeCG (mk : Byte → U16 → U16 → Instr) : List Byte → Option Instr
  | [c, r0, r1, c0, c1] => some (mk c (u16 r0 r1) (u16 c0 c1))
  | _ => none

/-- Format `CT`: two u16 fields, a u8 count and exactly that many text bytes. -/
def decodeCT (mk : U16 → U16 → List Byte → Instr) : List Byte → Option Instr
  | r0 :: r1 :: c0 :: c1 :: n :: text =>
    if text.length = n.toNat then some (mk (u16 r0 r1) (u16 c0 c1) text) else none
  | _ => none

/-- Format `CB`: a u16 count and exactly that many data bytes. -/
def decodeCB (mk : List Byte → Instr) : List Byte → Option Instr
  | n0 :: n1 :: data => if data.length = (u16 n0 n1).toNat then some (mk data) else none
  | _ => none

/-- The opcode map of port C (R74), applied to the bytes after the opcode: `none` for a reserved opcode (R76),
`some none` for a defined opcode with a wrong length (R77). -/
def decodeRow (op : Byte) (body : List Byte) : Option (Option Instr) :=
  match op with
  | 0x10#8 => some (decodeCXY .setpxOff body)
  | 0x11#8 => some (decodeCXY .setpxOn body)
  | 0x12#8 => some (decodeCXY .getpx body)
  | 0x20#8 => some (decodeC1 .fillOff body)
  | 0x21#8 => some (decodeC1 .fillOn body)
  | 0x22#8 => some (decodeC1 .invert body)
  | 0x24#8 => some (decodeCR .invrow body)
  | 0x26#8 => some (decodeC1 .clrdirty body)
  | 0x28#8 => some (decodeCB .copy body)
  | 0x30#8 => some (decodeCG .prcharOff body)
  | 0x31#8 => some (decodeCG .prcharOn body)
  | 0x32#8 => some (decodeCT .printOff body)
  | 0x33#8 => some (decodeCT .printOn body)
  | 0x40#8 => some (decodeC1 .flush body)
  | 0x44#8 => some (decodeC1 .rdstat body)
  | 0x50#8 => some (decodeC1 .popev body)
  | _ => none

/-- Decoding of a framed command, with the faults of R76 and R77 in the order of R198. -/
def decodeCommand : List Byte → Except DecodeError Instr
  | [] => .error (.malformed 0x00#8 0)
  | op :: body =>
    match decodeRow op body with
    | none => .error (.illegal op)
    | some none => .error (.malformed op (body.length + 1))
    | some (some i) => .ok i

/-- Routing of a report by its tag (R79, R80); total, since any other report is ignored (R164). -/
def decodeReport : List Byte → Instr
  | [] => .rptIgnored []
  | tag :: payload =>
    match tag with
    | 0x01#8 => .rptBtn payload
    | 0x20#8 => .rptPad payload
    | _ => .rptIgnored (tag :: payload)

/-- Decoding of an item of either port. -/
def decodeItem : Item → Except DecodeError Instr
  | .command bytes => decodeCommand bytes
  | .report bytes => .ok (decodeReport bytes)

/-- The format of each defined opcode (R74), `none` for a reserved one. -/
def opcodeFormat (op : Byte) : Option Format :=
  match op with
  | 0x10#8 => some .cxy
  | 0x11#8 => some .cxy
  | 0x12#8 => some .cxy
  | 0x20#8 => some .c1
  | 0x21#8 => some .c1
  | 0x22#8 => some .c1
  | 0x24#8 => some .cr
  | 0x26#8 => some .c1
  | 0x28#8 => some .cb
  | 0x30#8 => some .cg
  | 0x31#8 => some .cg
  | 0x32#8 => some .ct
  | 0x33#8 => some .ct
  | 0x40#8 => some .c1
  | 0x44#8 => some .c1
  | 0x50#8 => some .c1
  | _ => none

/-- The length of a command, told from its bytes (R75); `byteAt k` is byte `k`. `none` for a reserved opcode. -/
def commandLength (byteAt : Nat → Byte) : Option Nat :=
  (opcodeFormat (byteAt 0)).map fun
    | .c1 => 1
    | .cxy => 5
    | .cr => 3
    | .cg => 6
    | .ct => 6 + (byteAt 5).toNat
    | .cb => 3 + (u16 (byteAt 1) (byteAt 2)).toNat

/-- The bytes of an instruction, written from the formats of R72 and the maps of R74 and R80. -/
def encode : Instr → Item
  | .setpxOff x y => .command [0x10, lowByte x, highByte x, lowByte y, highByte y]
  | .setpxOn x y => .command [0x11, lowByte x, highByte x, lowByte y, highByte y]
  | .getpx x y => .command [0x12, lowByte x, highByte x, lowByte y, highByte y]
  | .fillOff => .command [0x20]
  | .fillOn => .command [0x21]
  | .invert => .command [0x22]
  | .invrow row => .command [0x24, lowByte row, highByte row]
  | .clrdirty => .command [0x26]
  | .copy data =>
    .command (0x28 :: BitVec.ofNat 8 data.length :: BitVec.ofNat 8 (data.length / 256) :: data)
  | .prcharOff c row col => .command [0x30, c, lowByte row, highByte row, lowByte col, highByte col]
  | .prcharOn c row col => .command [0x31, c, lowByte row, highByte row, lowByte col, highByte col]
  | .printOff row col text =>
    .command (0x32 :: lowByte row :: highByte row :: lowByte col :: highByte col ::
      BitVec.ofNat 8 text.length :: text)
  | .printOn row col text =>
    .command (0x33 :: lowByte row :: highByte row :: lowByte col :: highByte col ::
      BitVec.ofNat 8 text.length :: text)
  | .flush => .command [0x40]
  | .rdstat => .command [0x44]
  | .popev => .command [0x50]
  | .rptBtn payload => .report (0x01 :: payload)
  | .rptPad payload => .report (0x20 :: payload)
  | .rptIgnored report => .report report

/-- The command a pseudo-instruction stands for (R95). -/
def Pseudo.expand : Pseudo → Instr
  | .clear => .fillOff
  | .set x y => .setpxOn x y
  | .clr x y => .setpxOff x y

/-- The two bytes of a pad sample that names pad `pad` with the 12-bit value `value` (R82, R94). -/
def encodeSample (pad : BitVec 4) (value : BitVec 12) : List Byte :=
  [value.setWidth 8, (pad.setWidth 8 <<< 4) ||| (value >>> 8).setWidth 8]

/-- The report `RPT.PAD` of R94: sample `j` names pad `j` with the value at place `j` of the list, 0 when the list
is shorter, followed by zero bytes up to a payload of `padMin` bytes. -/
def assemblePadReport (padMin : Nat) (values : List (BitVec 12)) : List Byte :=
  0x20 :: ((List.range 16).flatMap fun j => encodeSample (BitVec.ofNat 4 j) (values.getD j 0)) ++
    List.replicate (padMin - 32) 0x00

/-- Byte `i` of the instruction whose bits are `w`, numbered as the opcode table numbers them. -/
def tableByte (w i : Nat) : Byte := BitVec.ofNat 8 (w >>> (8 * i))

/-- Length of the report that a table word stands for: the shortest accepted button and pad reports, the bare tag
otherwise (log 13). -/
def tableReportLength (tag : Byte) : Nat :=
  match tag with
  | 0x01#8 => 6
  | 0x20#8 => 65
  | _ => 1

/-- The item a table word stands for, its bytes above the given ones 0. A word does not say its port: it is a
command when its first byte is a defined opcode, a report otherwise; the one byte both ports define, `0x20`, is the
one-byte command FILL.OFF when the word is at most one byte and the pad report when it is longer (log 13). -/
def tableItem (nbits w : Nat) : Item :=
  match commandLength (tableByte w) with
  | some n =>
    if tableByte w 0 = 0x20#8 ∧ 8 < nbits then .report ((List.range 65).map (tableByte w))
    else .command ((List.range n).map (tableByte w))
  | none => .report ((List.range (tableReportLength (tableByte w 0))).map (tableByte w))

/-- The instruction the decoder reads from a word of the opcode table; `none` where it refuses. -/
def decodeTableWord (nbits w : Nat) : Option Instr := (decodeItem (tableItem nbits w)).toOption

end Sys2Proof
end

