-- ==== Sys2Proof/Machine/Memory.lean ====
section
/-! DEFINITION. The framebuffer bytes as a list of cells in one canonical form: addresses strictly rising, no cell
equal to what an unlisted address reads as (20_memory.md R50, R55; log 3). Whether an index lies inside the buffer
is checked by the rule of each instruction before it comes here (R64). -/

namespace Sys2Proof.Machine

/-- Framebuffer contents: the cells that differ from `unlistedByte`. -/
abbrev Memory := List Host.Cell

/-- What an unlisted address reads as: the reset contents of R23 when no image is configured. -/
def unlistedByte : Byte := 0x00#8

/-- The canonical form. -/
abbrev Memory.wf (m : Memory) : Prop :=
  m.Pairwise (fun c d => c.1 < d.1) ∧ ∀ c ∈ m, c.2 ≠ unlistedByte

/-- Every cell lies below `n`. -/
abbrev Memory.below (m : Memory) (n : Nat) : Prop := ∀ c ∈ m, c.1 < n

/-- `MemRead(a, 1)` (R17). -/
def Memory.read : Memory → Nat → Byte
  | [], _ => unlistedByte
  | (k, v) :: m, a => if k = a then v else Memory.read m a

/-- A cell in front of a memory whose addresses are all higher; the unlisted value leaves no cell. -/
def Memory.cons (a : Nat) (v : Byte) (m : Memory) : Memory :=
  if v = unlistedByte then m else (a, v) :: m

/-- `MemWrite(a, 1, v)` (R17), keeping the canonical form. -/
def Memory.write : Memory → Nat → Byte → Memory
  | [], a, v => Memory.cons a v []
  | (k, w) :: m, a, v =>
    if a < k then Memory.cons a v ((k, w) :: m)
    else if a = k then Memory.cons a v m
    else (k, w) :: Memory.write m a v

/-- Bytes written one after another from address `a`. -/
def Memory.writeBytes (m : Memory) (a : Nat) : List Byte → Memory
  | [] => m
  | v :: vs => Memory.writeBytes (m.write a v) (a + 1) vs

/-- A memory that holds exactly the given bytes from address `a`. -/
def Memory.ofBytes (a : Nat) : List Byte → Memory
  | [] => []
  | v :: vs => Memory.cons a v (Memory.ofBytes (a + 1) vs)

/-- The `n` bytes from address `a`, in ascending index order (R55). -/
def Memory.slice (m : Memory) (a n : Nat) : List Byte := (List.range n).map fun k => m.read (a + k)

end Sys2Proof.Machine
end

