-- ==== Sys2Proof/Machine/Parameters.lean ====
section
/-! DEFINITION. The fixed parameters (00_scope.md R9 to R14), the configuration check of reset
(70_reset_and_hazards.md R232) and what reset loads. -/

namespace Sys2Proof.Machine

/-- `LEN = W*H/8` (R9). -/
def frameLength (cfg : Config) : Nat := cfg.width * cfg.height / 8

/-- `GLYPH_W` (R10). -/
def glyphWidth : Nat := 5

/-- `BTN_MIN` (R12). -/
def buttonPayloadMin : Nat := 5

/-- `NSAMP` (R13). -/
def sampleCount : Nat := 16

/-- `READS_PER_TICK` (R14). -/
def readsPerTick : Nat := 32

/-- `DIRTY_RESET` (R14). -/
def dirtyReset : Bool := false

/-- `ENC_RESET` (R14). -/
def encoderReset : Byte := 0x00#8

/-- The constraints of R232 with their reason codes, in the order they are checked. -/
def configChecks (cfg : Config) : List (Byte × Bool) := [
  (0x01, decide (8 ≤ cfg.height ∧ cfg.height % 8 = 0)),
  (0x02, decide (1 ≤ cfg.width ∧ cfg.width ≤ 65535)),
  (0x03, cfg.initImage.all fun image => decide (image.length = frameLength cfg)),
  (0x04, decide (cfg.font.length = 96) && cfg.font.all fun g => decide (g.length = glyphWidth)),
  (0x05, decide (cfg.buttonCount ≤ 32 ∧ cfg.shiftIndex < cfg.buttonCount ∧ cfg.noneIndex ≠ some cfg.shiftIndex) &&
    cfg.noneIndex.all fun n => decide (n < cfg.buttonCount)),
  (0x06, decide (1 ≤ cfg.evqCap ∧ cfg.evqCap ≤ 65535)),
  (0x07, decide (32 ≤ cfg.padMin ∧ cfg.padThr ≤ 4095)),
  (0x08, decide (1 ≤ cfg.advance))]

/-- The reason code of the first constraint that fails, if any (R232). -/
def configFailure (cfg : Config) : Option Byte := ((configChecks cfg).find? fun c => !c.2).map (·.1)

/-- `FB` after reset (R23, R230): the configured image, all `0x00` when none is configured or when its length is
the constraint that failed; free bytes when its length is wrong but an earlier constraint failed (log 10). -/
def resetFrame (cfg : Config) : Memory :=
  match cfg.initImage with
  | none => []
  | some image =>
    if image.length = frameLength cfg then Memory.ofBytes 0 image
    else if configFailure cfg = some 0x03#8 then []
    else Memory.ofBytes 0 ((List.range (frameLength cfg)).map Config.freeImageByte)

/-- `FAULT` after reset (R230). -/
def resetFault (cfg : Config) : Byte :=
  match configFailure cfg with
  | none => 0x00#8
  | some _ => 0x10#8

/-- `ERR` after reset (R230). -/
def resetErrors (cfg : Config) : List Record :=
  match configFailure cfg with
  | none => []
  | some reason => [[0x10#8, reason]]

/-- The fixture font of 95_test_vectors.md section 0: the spec's own test values, not the device's (D37, log 2). -/
def fixtureFont : List (List Byte) :=
  [[0x00, 0x00, 0x00, 0x00, 0x00]] ++ List.replicate 32 [0x7F, 0x41, 0x41, 0x41, 0x7F] ++
  [[0x7C, 0x12, 0x11, 0x12, 0x7C], [0x7F, 0x49, 0x49, 0x49, 0x36]] ++
  List.replicate 61 [0x7F, 0x41, 0x41, 0x41, 0x7F]

/-- The configuration of `State.reset`: this hardware's values (R9, R11, R13, R14), and for the parameters the spec
leaves OPEN the fixture values of 95_test_vectors.md section 0, with `PAD_N = 1` (DESIGN CHOICE, log 2). -/
def hardwareConfig : Config where
  width := 128
  height := 64
  bound := .compat
  font := fixtureFont
  advance := 6
  buttonCount := 20
  noneIndex := some 19
  shiftIndex := 5
  padMin := 64
  padThr := 512
  evqCap := 1024
  initImage := none
  padN := ⟨1, by decide⟩

end Sys2Proof.Machine
end

