-- ==== Sys2Proof/Machine/Records.lean ====
section
/-! DEFINITION. Event records, faults, and the byte form of every output record (10_state.md R32; 30_encoding.md
R83 to R92; 60_exceptions.md R190). -/

namespace Sys2Proof.Machine

/-- The direction of an encoder event (R32). -/
inductive Direction
  | up
  | down
  deriving DecidableEq, Repr

/-- An event record (R32). -/
inductive Event
  /-- A button other than the shift button changed; `button` is the raw index 0 to 31. -/
  | buttonChange (button : BitVec 5) (pressed shift : Bool)
  /-- The encoder's raw value changed; `index` is the encoder index. -/
  | encoderChange (index : Byte) (direction : Direction) (shift : Bool)
  /-- A pad crossed the threshold. -/
  | padChange (pad : BitVec 4) (velocity : Byte) (shift : Bool)
  deriving DecidableEq, Repr

/-- The sticky faults of the block (R190), with what their error record shows. -/
inductive BlockFault
  /-- `F_OVERRUN(index)` -/
  | overrun (index : Nat)
  /-- `F_SIZE(n)` -/
  | size (n : Nat)
  /-- `F_ILLEGAL(OP)` -/
  | illegal (op : Byte)
  /-- `F_MALFORMED(OP, length)` -/
  | malformed (op : Byte) (length : Nat)
  /-- `F_GEOMETRY(W, H)` -/
  | geometry (width height : Nat)
  /-- `F_EVQ_OVERFLOW(count)` -/
  | evqOverflow (count : Nat)
  deriving DecidableEq, Repr

/-- A one-bit value as a byte. -/
def bitByte (b : Bool) : Byte := if b then 0x01#8 else 0x00#8

/-- The low `n` bytes of a natural, least significant first (R55 d). -/
def littleEndian : Nat → Nat → List Byte
  | 0, _ => []
  | n + 1, v => BitVec.ofNat 8 v :: littleEndian n (v / 256)

/-- A fault's info field of `n` bytes, little-endian (R190): the number itself when it fits, a free value when it
does not (log 9). -/
def infoField (n v : Nat) : List Byte :=
  littleEndian n (if v < 2 ^ (8 * n) then v else (Config.freeField (8 * n) v).toNat)

/-- `dir` of an encoder record (R90). -/
def Direction.toByte : Direction → Byte
  | .up => 0x01#8
  | .down => 0x02#8

/-- The four bytes of an event record (R90). -/
def Event.encode : Event → Record
  | .buttonChange button pressed shift => [0x01, button.setWidth 8, bitByte pressed, bitByte shift]
  | .encoderChange index direction shift => [0x02, index, direction.toByte, bitByte shift]
  | .padChange pad velocity shift => [0x03, pad.setWidth 8, velocity, bitByte shift]

/-- The code a fault puts into `FAULT` (R190). -/
def BlockFault.code : BlockFault → Byte
  | .overrun _ => 0x11#8
  | .size _ => 0x12#8
  | .illegal _ => 0x13#8
  | .malformed _ _ => 0x14#8
  | .geometry _ _ => 0x15#8
  | .evqOverflow _ => 0x16#8

/-- The info bytes of a fault's error record (R190). -/
def BlockFault.info : BlockFault → List Byte
  | .overrun index => infoField 4 index
  | .size n => infoField 2 n
  | .illegal op => [op]
  | .malformed op length => op :: infoField 2 length
  | .geometry width height => infoField 2 width ++ infoField 2 height
  | .evqOverflow count => infoField 1 count

/-- The `ERR` record of a fault (R92, R195). -/
def BlockFault.record (f : BlockFault) : Record := f.code :: f.info

/-- The `ERR` record of the recoverable error InvalidReport: tag and payload length (R92, R191). -/
def invalidReportRecord (tag : Byte) (n : Nat) : Record :=
  [0x01, tag, BitVec.ofNat 8 n, BitVec.ofNat 8 (n / 256)]

/-- The shift LED request (R91). -/
def ledRequest (v : Bool) : Record := [0x01, bitByte v]

/-- The display message of chunk `k` (R83). -/
def displayMessage (fb : Memory) (k : Nat) : Record :=
  [0xE0, 0x00, 0x00, BitVec.ofNat 8 (2 * k), 0x00, 0x80, 0x00, 0x02, 0x00] ++ fb.slice (256 * k) 256

end Sys2Proof.Machine
end

