-- ==== Sys2Proof/Machine/State.lean ====
section
/-! DEFINITION. The state of the block and its host (10_state.md R22; 60_exceptions.md R214), why a step can stop,
and the state right after reset (70_reset_and_hazards.md R230, R231). -/

namespace Sys2Proof.Machine

/-- Why the machine stops. -/
inductive Fault
  /-- The block is in the fault state with this code in `FAULT` and no reset follows: it has no step (R196, U5).
  Raised by `step` and by every meaning. Safe: the model stops where the hardware waits for a reset. -/
  | stuck (code : Byte)
  deriving DecidableEq, Repr

/-- What the model rejects. -/
inductive Refusal
  /-- An instruction with no meaning yet; raised by `exec` only. Safe. -/
  | notModelled (mnemonic : String)
  /-- The host delivered an item, or began a tick or a drain, while reset is asserted: outside its contract (R234,
  U20). Raised by `step`. Safe: no statement about a next state speaks of such a run. -/
  | itemDuringReset
  deriving DecidableEq, Repr

/-- The stage the host's next tick performs (R214). -/
inductive Phase
  | sendFrame
  | sendLeds
  | readInput
  deriving DecidableEq, Repr

/-- What a finished tick returned (R219). -/
inductive TickResult
  /-- The stage completed and the phase advanced. -/
  | done
  /-- A read failed or a display message was refused (R193). -/
  | transportError
  /-- A delivered report was invalid; its error record. -/
  | invalidReport (record : Record)
  deriving DecidableEq, Repr

/-- One action of the host (R220), in the order it takes them. -/
inductive HostAction
  /-- Deliver an item to its port. -/
  | deliver (item : Item)
  /-- Assert the reset input (R230): in the middle of the tick or drain in progress, once `after` more of its reads or
  POPEVs have been performed, or at its end if that comes first; with nothing in progress, at once (log 19). -/
  | assertReset (after : Nat)
  /-- Release the reset input (R234). -/
  | releaseReset
  /-- Call `tick()` (R214). -/
  | tick
  /-- Drain the event queue: POPEV until it answers `0x00` (R95, R220). -/
  | drain
  deriving DecidableEq, Repr

/-- The host's tick sequencer (R214, R217, R219). -/
structure Sequencer where
  /-- The stage of the next tick. -/
  phase : Phase
  /-- The index of the next read of a ReadInput stage in progress. -/
  reading : Option Nat
  /-- What the last finished tick returned. -/
  lastTick : Option TickResult
  deriving DecidableEq, Repr

/-- What comes from outside: the host's pending actions and the transport's answers. -/
structure Environment where
  /-- The host's actions not yet performed, oldest first (R59, log 4). -/
  input : List HostAction
  /-- Whether reset is asserted (log 8). -/
  resetLine : Bool
  /-- Answers to display messages decided beforehand, oldest first (U10, log 6). -/
  acks : List Ack
  /-- Transport reads decided beforehand, oldest first (U11, log 6). -/
  reads : List ReadResult
  /-- Free answers drawn so far (log 6). -/
  ackDraws : Nat
  /-- Free reads drawn so far (log 6). -/
  readDraws : Nat
  deriving DecidableEq, Repr

/-- The machine: the block's state record of R22, the configuration it was given (log 1), the host's sequencer and
the outside world. -/
structure State where
  /-- The configuration (R36), written by no step. -/
  cfg : Config
  /-- `FB` (R23). -/
  fb : Memory
  /-- `dirty` (R24). -/
  dirty : Bool
  /-- `BTN`, one latch for each button index (R26). -/
  btn : List Bool
  /-- `shift` (R27). -/
  shift : Bool
  /-- `ENC_LAST` (R28). -/
  encLast : Byte
  /-- `PAD_ACT` (R29). -/
  padAct : Vector Bool 16
  /-- `PAD_LAST` (R30). -/
  padLast : Vector (BitVec 12) 16
  /-- `EVQ`, oldest first (R31). -/
  evq : List Event
  /-- `FAULT` (R35). -/
  fault : Byte
  /-- `RESP`, oldest record first (R34). -/
  resp : List Record
  /-- `DISP`, oldest record first (R34). -/
  disp : List Record
  /-- `LEDREQ`, oldest record first (R34). -/
  ledreq : List Record
  /-- `ERR`, oldest record first (R34). -/
  err : List Record
  /-- The host's sequencer. -/
  host : Sequencer
  /-- The outside world. -/
  env : Environment
  deriving DecidableEq, Repr

/-- The state right after a reset of a machine with the given configuration, reset released and nothing pending
(R22, R230, R231). -/
def State.initial (cfg : Config) : State where
  cfg := cfg
  fb := resetFrame cfg
  dirty := dirtyReset
  btn := List.replicate cfg.buttonCount false
  shift := false
  encLast := encoderReset
  padAct := Vector.replicate 16 false
  padLast := Vector.replicate 16 0#12
  evq := []
  fault := resetFault cfg
  resp := []
  disp := []
  ledreq := []
  err := resetErrors cfg
  host := { phase := .sendFrame, reading := none, lastTick := none }
  env := { input := [], resetLine := false, acks := [], reads := [], ackDraws := 0, readDraws := 0 }

/-- The machine right after reset. -/
def State.reset : State := State.initial hardwareConfig

end Sys2Proof.Machine
end

