-- ==== Sys2Proof/Machine/Ops.lean ====
section
/-! DEFINITION. The operations every meaning is built from: the fault precondition, the framebuffer write, the output
ports, fault entry and the reset that leaves it, the event queue's commit, and the environment's answers. -/

namespace Sys2Proof.Machine

/-- An operation of the block under the precondition `FAULT = 0x00` (R196; 40_canvas.md preamble): with a fault
recorded nothing is performed. -/
def performing (s : State) (f : State → State) : Host.Outcome State Fault Refusal :=
  if s.fault = 0x00#8 then .next (f s) else .fault (.stuck s.fault)

/-- A write to the framebuffer: new contents and `dirty <- 1` (R24, R25). -/
def writeFrame (m : Memory) (s : State) : State := { s with fb := m, dirty := true }

/-- `emit RESP(record)` (R17, R34). -/
def emitResp (r : Record) (s : State) : State := { s with resp := s.resp ++ [r] }

/-- `emit DISP(record)` (R17, R34). -/
def emitDisp (r : Record) (s : State) : State := { s with disp := s.disp ++ [r] }

/-- `error InvalidReport(tag, n)`: the error record and nothing else (R17, R191). -/
def reportError (tag : Byte) (n : Nat) (s : State) : State := { s with err := s.err ++ [invalidReportRecord tag n] }

/-- Fault entry (R195): `FAULT` takes the code, `ERR` the record, and nothing else is written. -/
def raise (f : BlockFault) (s : State) : State := { s with fault := f.code, err := s.err ++ [f.record] }

/-- Reset asserted with the given actions still to come (R230, R231): every state element takes its reset value,
the configuration and the transport's answers stay, and the reset input is left asserted. -/
def performReset (rest : List HostAction) (s : State) : State :=
  { State.initial s.cfg with env := { s.env with input := rest, resetLine := true } }

/-- Appends a report's events to the queue, or raises `F_EVQ_OVERFLOW` and commits nothing (R151, R160, R166).
`commit` writes what else the report changes. -/
def commitEvents (evs : List Event) (commit : State → State) (s : State) : State :=
  if s.cfg.evqCap < s.evq.length + evs.length then raise (.evqOverflow evs.length) s
  else commit { s with evq := s.evq ++ evs }

/-- The transport's next answer `ack(k)` (R142): the oldest one decided beforehand, else a free draw (U10, log 6). -/
def drawAck (s : State) : Ack × State :=
  match s.env.acks with
  | a :: rest => (a, { s with env := { s.env with acks := rest } })
  | [] => (Config.freeAck s.env.ackDraws, { s with env := { s.env with ackDraws := s.env.ackDraws + 1 } })

/-- The transport's next read (R217, R218): the oldest one decided beforehand, else a free draw (U11, log 6). -/
def drawRead (s : State) : ReadResult × State :=
  match s.env.reads with
  | r :: rest => (r, { s with env := { s.env with reads := rest } })
  | [] => (Config.freeRead s.env.readDraws, { s with env := { s.env with readDraws := s.env.readDraws + 1 } })

end Sys2Proof.Machine
end

