-- ==== Sys2Proof/Machine/Operands.lean ====
section
/-! DEFINITION. Operand forms: the bound check and pixel address (R51, R100), glyph cells (R130, R131, R133), button
levels (R81) and pad samples (R82). All index arithmetic is on naturals (R16, R111). -/

namespace Sys2Proof.Machine

/-- The bound check shared by SETPX and GETPX (R100). -/
def inRange (cfg : Config) (x y : Nat) : Bool :=
  match cfg.bound with
  | .compat => decide (x ≤ cfg.width ∧ y ≤ cfg.height)
  | .strict => decide (x < cfg.width ∧ y < cfg.height)

/-- The byte that holds a pixel (R51). -/
def pixelIndex (cfg : Config) (x y : Nat) : Nat := cfg.width * (y / 8) + x

/-- The mask of a pixel inside its byte: bit `y & 7` (R51, R52). -/
def pixelMask (y : Nat) : Byte := 1#8 <<< (y % 8)

/-- The value of a pixel in the framebuffer (R102). -/
def pixelValue (s : State) (x y : Nat) : Bool := (s.fb.read (pixelIndex s.cfg x y)).getLsbD (y % 8)

/-- A byte with one pixel set or cleared (R101). -/
def setBit (on : Bool) (mask b : Byte) : Byte := if on then b ||| mask else b &&& ~~~mask

/-- The byte FILL writes (R103). -/
def fillByte (on : Bool) : Byte := if on then 0xFF#8 else 0x00#8

/-- A printable code (R130). -/
def printable (c : Byte) : Bool := decide (0x20 ≤ c.toNat ∧ c.toNat ≤ 0x7F)

/-- The five bytes a printable code is drawn with: the glyph, complemented for `s = 0` (R130, R131). -/
def glyphBytes (cfg : Config) (on : Bool) (c : Byte) : List Byte :=
  (List.range glyphWidth).map fun k =>
    let g := (cfg.font.getD (c.toNat - 0x20) []).getD k 0x00
    if on then g else ~~~g

/-- The first byte of the cell of character `j` of a text at `row`, `col` (R131 with `j = 0`, R133). -/
def cellBase (cfg : Config) (row col j : Nat) : Nat := cfg.width * row + col + j * cfg.advance

/-- The index `F_OVERRUN` reports for a cell with that base, if any of its bytes lies past the buffer (R131). -/
def cellOverrun (cfg : Config) (base : Nat) : Option Nat :=
  if frameLength cfg ≤ base + glyphWidth - 1 then some (max base (frameLength cfg)) else none

/-- The check pass of PRINT from character `j` on: the index of the first overrunning printable character (R133). -/
def textOverrun (cfg : Config) (row col : Nat) : Nat → List Byte → Option Nat
  | _, [] => none
  | j, c :: text =>
    if printable c then
      match cellOverrun cfg (cellBase cfg row col j) with
      | some i => some i
      | none => textOverrun cfg row col (j + 1) text
    else textOverrun cfg row col (j + 1) text

/-- The write pass of PRINT from character `j` on, in text order (R133). -/
def writeText (cfg : Config) (on : Bool) (row col : Nat) : Nat → List Byte → Memory → Memory
  | _, [], m => m
  | j, c :: text, m =>
    writeText cfg on row col (j + 1) text
      (if printable c then m.writeBytes (cellBase cfg row col j) (glyphBytes cfg on c) else m)

/-- The level of button `i` in a button report's payload (R81). -/
def buttonLevel (p : List Byte) (i : Nat) : Bool := (p.getD (i / 8) 0x00).getLsbD (i % 8)

/-- The encoder's raw value in a button report's payload, taken whole (R81, D16). -/
def encoderRaw (p : List Byte) : Byte := p.getD 4 0x00

/-- The pad index of sample `j` (R82). -/
def samplePad (p : List Byte) (j : Nat) : BitVec 4 := ((p.getD (2 * j + 1) 0x00) >>> 4).setWidth 4

/-- The 12-bit value of sample `j` (R82). -/
def sampleValue (p : List Byte) (j : Nat) : BitVec 12 :=
  ((p.getD (2 * j + 1) 0x00 &&& 0x0F#8).setWidth 12 <<< 8) ||| (p.getD (2 * j) 0x00).setWidth 12

/-- The velocity of a rising pad event: `value >> 4`, which fits 8 bits (R160, R161). -/
def velocity (value : BitVec 12) : Byte := (value >>> 4).setWidth 8

end Sys2Proof.Machine
end

