-- ==== Sys2Proof/Machine/Flags.lean ====
section
/-! DEFINITION. The flag computations: the STATUS view (R33, R112), the encoder's direction (R153), and the latch and
shift updates of the two report decoders (R151, R160). -/

namespace Sys2Proof.Machine

/-- The three STATUS bytes (R33). -/
def statusBytes (s : State) : Record :=
  [bitByte s.dirty ||| (bitByte s.shift <<< 1) ||| (bitByte (decide (s.evq.length ≠ 0)) <<< 2),
   BitVec.ofNat 8 s.evq.length, BitVec.ofNat 8 (s.evq.length / 256)]

/-- The direction of an encoder change, compared unsigned on whole bytes (R153). -/
def encoderDirection (old new : Byte) : Direction :=
  if old = 0x00#8 ∧ new = 0x0F#8 then .down
  else if old < new then .up
  else if old = 0x0F#8 ∧ new = 0x00#8 then .up
  else .down

/-- The working copies of the button decoder (R151). -/
structure ButtonScan where
  btn : List Bool
  shift : Bool
  evs : List Event
  leds : List Record
  deriving DecidableEq, Repr

/-- One turn of the button loop (R151): the sentinel is skipped, an edge updates the latch, the shift button updates
the shift flag and requests its LED, any other button appends an event with the shift flag as it stands. -/
def scanButton (cfg : Config) (p : List Byte) (w : ButtonScan) (i : Nat) : ButtonScan :=
  if cfg.noneIndex = some i then w
  else if buttonLevel p i = w.btn.getD i false then w
  else if i = cfg.shiftIndex then
    { w with btn := w.btn.set i (buttonLevel p i), shift := buttonLevel p i,
             leds := w.leds ++ [ledRequest (buttonLevel p i)] }
  else
    { w with btn := w.btn.set i (buttonLevel p i),
             evs := w.evs ++ [.buttonChange (BitVec.ofNat 5 i) (buttonLevel p i) w.shift] }

/-- The button loop, ascending (R151). -/
def scanButtons (s : State) (p : List Byte) : ButtonScan :=
  (List.range s.cfg.buttonCount).foldl (scanButton s.cfg p)
    { btn := s.btn, shift := s.shift, evs := [], leds := [] }

/-- The encoder's event of a button report, if its raw value changed (R151, R154); `shift` is the flag after all
buttons. -/
def encoderEvents (old new : Byte) (shift : Bool) : List Event :=
  if new = old then [] else [.encoderChange 0x00 (encoderDirection old new) shift]

/-- The working copies of the pad decoder (R160). -/
structure PadScan where
  act : Vector Bool 16
  last : Vector (BitVec 12) 16
  evs : List Event
  deriving DecidableEq, Repr

/-- One turn of the pad loop (R160): a rise over the threshold of an idle pad and a fall at or under it of an active
pad flip the latch and append an event; the last value is always stored. -/
def scanSample (thr : Nat) (shift : Bool) (p : List Byte) (w : PadScan) (j : Nat) : PadScan :=
  let pad := samplePad p j
  let value := sampleValue p j
  let last := w.last.set pad.toNat value pad.isLt
  if thr < value.toNat ∧ w.act[pad.toNat] = false then
    { act := w.act.set pad.toNat true pad.isLt, last := last,
      evs := w.evs ++ [.padChange pad (velocity value) shift] }
  else if value.toNat ≤ thr ∧ w.act[pad.toNat] = true then
    { act := w.act.set pad.toNat false pad.isLt, last := last,
      evs := w.evs ++ [.padChange pad 0x00 shift] }
  else { w with last := last }

/-- The pad loop, ascending (R160). -/
def scanSamples (s : State) (p : List Byte) : PadScan :=
  (List.range sampleCount).foldl (scanSample s.cfg.padThr s.shift p)
    { act := s.padAct, last := s.padLast, evs := [] }

end Sys2Proof.Machine
end

