-- ==== Sys2Proof/Machine/Canvas.lean ====
section
/-! DEFINITION. The canvas commands (40_canvas.md R101 to R107, R112). -/

namespace Sys2Proof.Machine

/-- set_pixel (R101). -/
def setPixel (on : Bool) (x y : Nat) (s : State) : State :=
  if inRange s.cfg x y then
    let i := pixelIndex s.cfg x y
    if frameLength s.cfg ≤ i then raise (.overrun i) s
    else writeFrame (s.fb.write i (setBit on (pixelMask y) (s.fb.read i))) s
  else s

/-- pixel (R102). -/
def getPixel (x y : Nat) (s : State) : State :=
  if inRange s.cfg x y then
    let i := pixelIndex s.cfg x y
    if frameLength s.cfg ≤ i then raise (.overrun i) s
    else emitResp [bitByte (pixelValue s x y)] s
  else emitResp [0x80] s

/-- fill (R103). -/
def fillFrame (on : Bool) (s : State) : State :=
  writeFrame (Memory.ofBytes 0 (List.replicate (frameLength s.cfg) (fillByte on))) s

/-- invert (R104). -/
def invertFrame (s : State) : State :=
  writeFrame (Memory.ofBytes 0 ((s.fb.slice 0 (frameLength s.cfg)).map (~~~ ·))) s

/-- invert_row (R105): the `W` bytes of a row group, nothing past the buffer end. -/
def invertRow (row : Nat) (s : State) : State :=
  let start := row * s.cfg.width
  if frameLength s.cfg ≤ start then s
  else writeFrame (s.fb.writeBytes start ((s.fb.slice start s.cfg.width).map (~~~ ·))) s

/-- copy_from (R106). -/
def copyFrame (data : List Byte) (s : State) : State :=
  if data.length = frameLength s.cfg then writeFrame (Memory.ofBytes 0 data) s
  else raise (.size data.length) s

/-- `SETPX.OFF x, y` (R101). -/
def execSetpxOff (x y : U16) (s : State) : Host.Outcome State Fault Refusal :=
  performing s (setPixel false x.toNat y.toNat)

/-- `SETPX.ON x, y` (R101). -/
def execSetpxOn (x y : U16) (s : State) : Host.Outcome State Fault Refusal :=
  performing s (setPixel true x.toNat y.toNat)

/-- `GETPX x, y` (R102). -/
def execGetpx (x y : U16) (s : State) : Host.Outcome State Fault Refusal :=
  performing s (getPixel x.toNat y.toNat)

/-- `FILL.OFF` (R103). -/
def execFillOff (s : State) : Host.Outcome State Fault Refusal := performing s (fillFrame false)

/-- `FILL.ON` (R103). -/
def execFillOn (s : State) : Host.Outcome State Fault Refusal := performing s (fillFrame true)

/-- `INVERT` (R104). -/
def execInvert (s : State) : Host.Outcome State Fault Refusal := performing s invertFrame

/-- `INVROW row` (R105). -/
def execInvrow (row : U16) (s : State) : Host.Outcome State Fault Refusal := performing s (invertRow row.toNat)

/-- `CLRDIRTY` (R107). -/
def execClrdirty (s : State) : Host.Outcome State Fault Refusal :=
  performing s fun s => { s with dirty := false }

/-- `COPY d[0..n-1]` (R106). -/
def execCopy (data : List Byte) (s : State) : Host.Outcome State Fault Refusal := performing s (copyFrame data)

/-- `RDSTAT` (R112). -/
def execRdstat (s : State) : Host.Outcome State Fault Refusal :=
  performing s fun s => emitResp (statusBytes s) s

end Sys2Proof.Machine
end

