-- ==== Sys2Proof/Machine/Frame.lean ====
section
/-! DEFINITION. The display-frame read-out (42_frame.md R140 to R145). -/

namespace Sys2Proof.Machine

/-- The messages of the given chunks in order, each waiting for its answer (R142): the first refusal ends the
read-out with `dirty` kept, and when all are accepted `dirty` is cleared (R143). -/
def sendChunks : List Nat → State → State
  | [], s => emitResp [0x04] { s with dirty := false }
  | k :: ks, s =>
    match drawAck (emitDisp (displayMessage s.fb k) s) with
    | (.accepted, t) => sendChunks ks t
    | (.refused, t) => emitResp [0x80 ||| BitVec.ofNat 8 k] t

/-- SendFrame read-out (R141, R142, R145). -/
def flushFrame (s : State) : State :=
  if s.cfg.width = 128 ∧ s.cfg.height = 64 then
    if s.dirty then sendChunks [0, 1, 2, 3] s else emitResp [0x00] s
  else raise (.geometry s.cfg.width s.cfg.height) s

/-- `FLUSH` (R142). -/
def execFlush (s : State) : Host.Outcome State Fault Refusal := performing s flushFrame

end Sys2Proof.Machine
end

