-- ==== Sys2Proof/Machine/Glyph.lean ====
section
/-! DEFINITION. The glyph commands (41_glyph.md R130 to R135). -/

namespace Sys2Proof.Machine

/-- print_char (R131): a code that is not printable is skipped; otherwise five bytes are overwritten, all or none. -/
def printChar (on : Bool) (c : Byte) (row col : Nat) (s : State) : State :=
  if printable c then
    match cellOverrun s.cfg (cellBase s.cfg row col 0) with
    | some i => raise (.overrun i) s
    | none => writeFrame (s.fb.writeBytes (cellBase s.cfg row col 0) (glyphBytes s.cfg on c)) s
  else s

/-- print (R133): the check pass, then the write pass; `dirty` is set when some code is printable. -/
def printText (on : Bool) (row col : Nat) (text : List Byte) (s : State) : State :=
  match textOverrun s.cfg row col 0 text with
  | some i => raise (.overrun i) s
  | none => if text.any printable then writeFrame (writeText s.cfg on row col 0 text s.fb) s else s

/-- `PRCHAR.OFF c, row, col` (R131). -/
def execPrcharOff (c : Byte) (row col : U16) (s : State) : Host.Outcome State Fault Refusal :=
  performing s (printChar false c row.toNat col.toNat)

/-- `PRCHAR.ON c, row, col` (R131). -/
def execPrcharOn (c : Byte) (row col : U16) (s : State) : Host.Outcome State Fault Refusal :=
  performing s (printChar true c row.toNat col.toNat)

/-- `PRINT.OFF row, col, "t"` (R133). -/
def execPrintOff (row col : U16) (text : List Byte) (s : State) : Host.Outcome State Fault Refusal :=
  performing s (printText false row.toNat col.toNat text)

/-- `PRINT.ON row, col, "t"` (R133). -/
def execPrintOn (row col : U16) (text : List Byte) (s : State) : Host.Outcome State Fault Refusal :=
  performing s (printText true row.toNat col.toNat text)

end Sys2Proof.Machine
end

