-- ==== Sys2Proof/Machine/Reports.lean ====
section
/-! DEFINITION. The report decoder and the event queue (43_decoder.md R150 to R169). -/

namespace Sys2Proof.Machine

/-- A button report (R150, R151): a short payload is InvalidReport; otherwise the buttons, then the encoder, then the
commit of everything at once, or an overflow that commits nothing (R166). -/
def buttonReport (p : List Byte) (s : State) : State :=
  if p.length < buttonPayloadMin then reportError 0x01 p.length s
  else
    let w := scanButtons s p
    commitEvents (w.evs ++ encoderEvents s.encLast (encoderRaw p) w.shift)
      (fun t => { t with btn := w.btn, shift := w.shift, encLast := encoderRaw p, ledreq := t.ledreq ++ w.leds }) s

/-- A pad report (R159, R160). -/
def padReport (p : List Byte) (s : State) : State :=
  if p.length < s.cfg.padMin then reportError 0x20 p.length s
  else
    let w := scanSamples s p
    commitEvents w.evs (fun t => { t with padAct := w.act, padLast := w.last }) s

/-- pop one event (R165). -/
def popEvent (s : State) : State :=
  match s.evq with
  | [] => emitResp [0x00] s
  | e :: rest => emitResp e.encode { s with evq := rest }

/-- `POPEV` (R165). -/
def execPopev (s : State) : Host.Outcome State Fault Refusal := performing s popEvent

/-- `RPT.BTN` (R150, R151). -/
def execRptBtn (payload : List Byte) (s : State) : Host.Outcome State Fault Refusal :=
  performing s (buttonReport payload)

/-- `RPT.PAD` (R159, R160). -/
def execRptPad (payload : List Byte) (s : State) : Host.Outcome State Fault Refusal :=
  performing s (padReport payload)

/-- `RPT.IGNORED` (R164): no state change, no event, no error record. -/
def execRptIgnored (s : State) : Host.Outcome State Fault Refusal := performing s fun s => s

end Sys2Proof.Machine
end

