-- ==== Sys2Proof/Machine/Dispatch.lean ====
section
/-! DEFINITION. One arm for each row of spec/opcode_table.json. -/

namespace Sys2Proof.Machine

def exec (i : Instr) (s : State) : Host.Outcome State Fault Refusal :=
  match i with
  | .setpxOff x y => Sys2Proof.Machine.execSetpxOff x y s
  | .setpxOn x y => Sys2Proof.Machine.execSetpxOn x y s
  | .getpx x y => Sys2Proof.Machine.execGetpx x y s
  | .fillOff => Sys2Proof.Machine.execFillOff s
  | .fillOn => Sys2Proof.Machine.execFillOn s
  | .invert => Sys2Proof.Machine.execInvert s
  | .invrow row => Sys2Proof.Machine.execInvrow row s
  | .clrdirty => Sys2Proof.Machine.execClrdirty s
  | .copy data => Sys2Proof.Machine.execCopy data s
  | .prcharOff c row col => Sys2Proof.Machine.execPrcharOff c row col s
  | .prcharOn c row col => Sys2Proof.Machine.execPrcharOn c row col s
  | .printOff row col text => Sys2Proof.Machine.execPrintOff row col text s
  | .printOn row col text => Sys2Proof.Machine.execPrintOn row col text s
  | .flush => Sys2Proof.Machine.execFlush s
  | .rdstat => Sys2Proof.Machine.execRdstat s
  | .popev => Sys2Proof.Machine.execPopev s
  | .rptBtn payload => Sys2Proof.Machine.execRptBtn payload s
  | .rptPad payload => Sys2Proof.Machine.execRptPad payload s
  | .rptIgnored _ => Sys2Proof.Machine.execRptIgnored s

end Sys2Proof.Machine
end

