-- ==== Sys2Proof/Machine/Sequencer.lean ====
section
/-! DEFINITION. How items reach the block: delivery and its faults (R59, R76, R77, R195), the reset input (R230, R234),
the stuck state (R196), and the host's tick (R214 to R219) and drain (R95, R220), one item of the block a step. -/

namespace Sys2Proof.Machine

/-- The fault an undecodable command raises (R76, R77). -/
def decodeFault : DecodeError → BlockFault
  | .illegal op => .illegal op
  | .malformed op length => .malformed op length

/-- One item performed by the block: its instruction, or the fault of an undecodable command (R76, R77, R198). -/
def performItem (item : Item) (s : State) : Host.Outcome State Fault Refusal :=
  match decodeItem item with
  | .ok i => exec i s
  | .error e => performing s (raise (decodeFault e))

/-- What follows an outcome that is a next state. -/
def andThen (o : Host.Outcome State Fault Refusal) (f : State → State) : Host.Outcome State Fault Refusal :=
  match o with
  | .next s => .next (f s)
  | .fault r => .fault r
  | .refused r => .refused r

/-- The phase after a completed stage (R214). -/
def Phase.following : Phase → Phase
  | .sendFrame => .sendLeds
  | .sendLeds => .readInput
  | .readInput => .sendFrame

/-- The end of a tick: a completed stage advances the phase, an error does not (R214, R219). -/
def endTick (r : TickResult) (s : State) : State :=
  { s with host :=
      { phase := if r = .done then s.host.phase.following else s.host.phase
        reading := none
        lastTick := some r } }

/-- The end of the SendFrame stage (R215, R219), from the responses FLUSH gave: `0x80 | k` is a refused message, any
other response completes the stage, and none means that the block faulted, which leaves the tick unfinished (log 12). -/
def endSendFrame (responses : List Record) (s : State) : State :=
  match responses with
  | [] => s
  | r :: _ => endTick (if (r.headD 0x00).getLsbD 7 then .transportError else .done) s

/-- After a delivered report of the ReadInput stage (R217, R219): an InvalidReport record ends the tick, otherwise the
next read follows. `errors` are the records the report put on `ERR`. -/
def afterReport (i : Nat) (errors : List Record) (s : State) : State :=
  match errors with
  | r :: _ => if s.fault = 0x00#8 then endTick (.invalidReport r) s else s
  | [] => { s with host := { s.host with reading := some (i + 1) } }

/-- Whether the host delivers what a read returned at index `i` to port R: pad reports only on sampled reads (R217). -/
def delivers (cfg : Config) (i : Nat) (bytes : List Byte) : Bool :=
  bytes.headD 0x00 ≠ 0x20#8 || decide (i % cfg.padN.val = 0)

/-- The host's actions after one more read or POPEV of what is in progress: a reset that waits for it is one nearer
(log 19). -/
def countDown : List HostAction → List HostAction
  | .assertReset (n + 1) :: rest => .assertReset n :: rest
  | input => input

/-- The state with one more read or POPEV of what is in progress counted. -/
def counted (s : State) : State := { s with env := { s.env with input := countDown s.env.input } }

/-- The next operation of the tick or drain in progress, unless the host asserts reset before it (R220, R230): reset is
asserted at any time, so before any of these operations. -/
def underway (operation : State → Host.Outcome State Fault Refusal) (s : State) : Host.Outcome State Fault Refusal :=
  match s.env.input with
  | .assertReset 0 :: rest => .next (performReset rest s)
  | _ => operation (counted s)

/-- One read of the ReadInput stage (R217 to R219). -/
def stepRead (i : Nat) (s : State) : Host.Outcome State Fault Refusal :=
  if readsPerTick ≤ i then .next (endTick .done s)
  else
    match drawRead s with
    | (.error, t) => .next (endTick .transportError t)
    | (.bytes [], t) => .next (endTick .done t)
    | (.bytes (b :: bs), t) =>
      if delivers t.cfg i (b :: bs) then
        andThen (performItem (.report (b :: bs)) t) fun u => afterReport i (u.err.drop t.err.length) u
      else .next { t with host := { t.host with reading := some (i + 1) } }

/-- The start of a tick (R214 to R217): SendFrame issues FLUSH, SendLeds touches no block state (log 18), ReadInput
begins its reads. -/
def stepTick (s : State) : Host.Outcome State Fault Refusal :=
  match s.host.phase with
  | .sendFrame => andThen (exec .flush s) fun t => endSendFrame (t.resp.drop s.resp.length) t
  | .sendLeds => .next (endTick .done s)
  | .readInput => .next { s with host := { s.host with reading := some 0 } }

/-- One POPEV of a drain, which stays the next action until the queue was found empty (R95, R220), or until a reset
cuts it short (R230). -/
def stepDrain (s : State) : Host.Outcome State Fault Refusal :=
  andThen (exec .popev s) fun t =>
    if s.evq = [] then t else { t with env := { t.env with input := .drain :: t.env.input } }

/-- One action of the host, already taken from the input, with no fault recorded and reset released. -/
def stepAction (a : HostAction) (s : State) : Host.Outcome State Fault Refusal :=
  match a with
  | .deliver item => performItem item s
  | .assertReset _ => .next (performReset s.env.input s)
  | .releaseReset => .next s
  | .tick => stepTick s
  | .drain => underway stepDrain s

/-- A step while reset is asserted (R230, R234, U20): only the reset input may act. -/
def stepInReset (s : State) : Host.Outcome State Fault Refusal :=
  match s.env.input with
  | [] => .next s
  | .assertReset _ :: rest => .next (performReset rest s)
  | .releaseReset :: rest => .next { s with env := { s.env with input := rest, resetLine := false } }
  | .deliver _ :: _ => .refused .itemDuringReset
  | .tick :: _ => .refused .itemDuringReset
  | .drain :: _ => .refused .itemDuringReset

/-- The actions after the next reset; what was pending before it is discarded (R196, R230). -/
def afterNextReset : List HostAction → Option (List HostAction)
  | [] => none
  | .assertReset _ :: rest => some rest
  | _ :: rest => afterNextReset rest

/-- A step in the fault state (R196, R197, U5): reset, if the host asserts it, or none. -/
def stepFaulted (s : State) : Host.Outcome State Fault Refusal :=
  match afterNextReset s.env.input with
  | some rest => .next (performReset rest s)
  | none => .fault (.stuck s.fault)

/-- A step of the running block and its host: the next read of a stage in progress, or the reset that cuts it short
(R230), else the host's next action; with nothing delivered nothing happens (R222, log 5). -/
def stepRunning (s : State) : Host.Outcome State Fault Refusal :=
  match s.host.reading with
  | some i => underway (stepRead i) s
  | none =>
    match s.env.input with
    | [] => .next s
    | a :: rest => stepAction a { s with env := { s.env with input := rest } }

/-- One step of the machine. -/
def stepMachine (s : State) : Host.Outcome State Fault Refusal :=
  if s.env.resetLine then stepInReset s
  else if s.fault = 0x00#8 then stepRunning s
  else stepFaulted s

/-- The state with an item presented as the very next one: at the head of the host's actions, reset released and no
stage of a tick in progress (log 14). -/
def present (item : Item) (s : State) : State :=
  { s with host := { s.host with reading := none },
           env := { s.env with input := .deliver item :: s.env.input, resetLine := false } }

end Sys2Proof.Machine
end

