-- ==== Sys2Proof/Machine/Step.lean ====
section
/-! DEFINITION. The step of the machine and the placing of a table word where the next step takes its item. -/

namespace Sys2Proof.Machine

/-- One step: next state, fault (stuck), or refusal. -/
def step (s : State) : Host.Outcome State Fault Refusal := Sys2Proof.Machine.stepMachine s

/-- The instruction of a table word presented as the next item (log 14). -/
def State.withFetchWord (s : State) (nbits w : Nat) : State := Sys2Proof.Machine.present (tableItem nbits w) s

end Sys2Proof.Machine
end

