-- ==== Sys2Proof/Safety.lean ====
section
/-! DEFINITION. What counts as a good state, and the terms the statements are written in. -/

namespace Sys2Proof.Machine

/-- No fault is recorded (R35). -/
abbrev Running (s : State) : Prop := s.fault = 0x00#8

/-- The values `FAULT` can hold (R35, R190). -/
def faultCodes : List Byte := [0x00, 0x10, 0x11, 0x12, 0x13, 0x14, 0x15, 0x16]

/-- `FB` is in canonical form and holds nothing outside its `LEN` bytes (R23; log 3). -/
abbrev FrameInv (s : State) : Prop := s.fb.wf ∧ s.fb.below (frameLength s.cfg)

/-- One latch for each button; the shift flag is the shift button's latch (R26, R27); the sentinel's latch is never
written (R26). -/
abbrev ButtonInv (s : State) : Prop :=
  s.btn.length = s.cfg.buttonCount ∧ s.shift = s.btn.getD s.cfg.shiftIndex false ∧
  (s.cfg.noneIndex.all fun n => !s.btn.getD n false) = true

/-- A pad is active exactly when its last value is over the threshold (R30). -/
abbrev PadInv (s : State) : Prop :=
  ∀ p : Fin 16, s.padAct[p] = decide (s.cfg.padThr < s.padLast[p].toNat)

/-- The queue is within its capacity (R31). -/
abbrev QueueInv (s : State) : Prop := s.evq.length ≤ s.cfg.evqCap

/-- `FAULT` holds a code of R190 or `0x00`, and a block without a fault has a configuration that passed the check of
reset (R232). -/
abbrev FaultInv (s : State) : Prop :=
  s.fault ∈ faultCodes ∧ (s.fault = 0x00#8 → configFailure s.cfg = none)

/-- A read index is within the stage's reads, and only the ReadInput stage has one (R217). -/
abbrev SequencerInv (s : State) : Prop :=
  (s.host.reading.all fun i => decide (i ≤ readsPerTick)) = true ∧
  (s.host.reading ≠ none → s.host.phase = .readInput)

/-- The invariant of the machine. -/
abbrev Inv (s : State) : Prop :=
  FrameInv s ∧ ButtonInv s ∧ PadInv s ∧ QueueInv s ∧ FaultInv s ∧ SequencerInv s

/-- Every state element at its reset value (R22, R230, R231), for a machine with the given configuration. -/
structure ResetValues (cfg : Config) (t : State) : Prop where
  cfg_eq : t.cfg = cfg
  dirty : t.dirty = false
  btn : t.btn = List.replicate cfg.buttonCount false
  shift : t.shift = false
  encLast : t.encLast = 0x00
  padAct : ∀ q : Fin 16, t.padAct[q] = false
  padLast : ∀ q : Fin 16, t.padLast[q] = 0
  evq : t.evq = []
  resp : t.resp = []
  disp : t.disp = []
  ledreq : t.ledreq = []
  phase : t.host.phase = .sendFrame
  passed : configFailure cfg = none → t.fault = 0x00 ∧ t.err = []
  failed : ∀ reason, configFailure cfg = some reason → t.fault = 0x10 ∧ t.err = [[0x10, reason]]
  image : ∀ bytes, cfg.initImage = some bytes → bytes.length = frameLength cfg →
    ∀ a < frameLength cfg, t.fb.read a = bytes.getD a 0x00
  noImage : cfg.initImage = none → ∀ a, t.fb.read a = 0x00
  badImage : configFailure cfg = some 0x03 → ∀ a, t.fb.read a = 0x00

/-- A reset with this configuration raises `F_CONFIG` with this reason (R192, R230). -/
abbrev RaisesConfig (cfg : Config) (reason : Byte) : Prop :=
  (State.initial cfg).fault = 0x10 ∧ (State.initial cfg).err = [[0x10, reason]]

/-- The state fault entry leaves: the code in `FAULT`, one record on `ERR`, all else as before (R195). -/
def faulted (s : State) (code : Byte) (info : List Byte) : State :=
  { s with fault := code, err := s.err ++ [code :: info] }

/-- The block is about to take the given item: nothing else goes first (R59). -/
abbrev Ready (s : State) (item : Item) (rest : List HostAction) : Prop :=
  Running s ∧ s.env.resetLine = false ∧ s.host.reading = none ∧ s.env.input = .deliver item :: rest

/-- The state with the given actions still pending. -/
def withInput (s : State) (rest : List HostAction) : State := { s with env := { s.env with input := rest } }

/-- The instructions performed one after another, stopping where one does not answer a next state. -/
def execAll : List Instr → State → Host.Outcome State Fault Refusal
  | [], s => .next s
  | i :: is, s =>
    match exec i s with
    | .next t => execAll is t
    | .fault r => .fault r
    | .refused r => .refused r

/-- The transport's answer to message `k` of the next FLUSH: a listed one, past the list a free one (U10). -/
def ackAt (s : State) (k : Nat) : Ack :=
  match s.env.acks[k]? with
  | some a => a
  | none => Config.freeAck (s.env.ackDraws + (k - s.env.acks.length))

/-- The opcodes of R74. -/
def definedOpcodes : List Byte :=
  [0x10, 0x11, 0x12, 0x20, 0x21, 0x22, 0x24, 0x26, 0x28, 0x30, 0x31, 0x32, 0x33, 0x40, 0x44, 0x50]

/-- An info field of `n` bytes that shows the number `v`: the number itself, low byte first, when it fits (R190).
Nothing is said of a number that does not fit (log 9). -/
def Shows (n v : Nat) (f : List Byte) : Prop := f.length = n ∧ (v < 256 ^ n → f = littleEndian n v)

/-- The bound check in the source's words (R100). -/
abbrev PassesBound (cfg : Config) (x y : Nat) : Prop :=
  (cfg.bound = .compat → ¬(cfg.width < x ∨ cfg.height < y)) ∧ (cfg.bound = .strict → x < cfg.width ∧ y < cfg.height)

/-- Column `k` of the glyph of a printable code as PRCHAR and PRINT draw it (R130, R131). -/
def drawnColumn (cfg : Config) (on : Bool) (c : Byte) (k : Nat) : Byte :=
  let g := (cfg.font.getD (c.toNat - 0x20) []).getD k 0x00
  if on then g else ~~~g

/-- A code PRINT draws (R130). -/
abbrev Drawn (c : Byte) : Prop := 0x20 ≤ c.toNat ∧ c.toNat ≤ 0x7F

/-- The display message of chunk `k` (R83, R140). -/
def chunkMessage (s : State) (k : Nat) : Record :=
  [0xE0, 0x00, 0x00, BitVec.ofNat 8 (2 * k), 0x00, 0x80, 0x00, 0x02, 0x00] ++
    (List.range 256).map fun j => s.fb.read (256 * k + j)

/-- The ButtonChange event of button `i` in a button report, if any (R151, R157): none for the sentinel, the shift
button or an unchanged level; a button above the shift button shows the new shift level, one below it the old one
(R249). -/
def buttonEventAt (s : State) (p : List Byte) (i : Nat) : Option Event :=
  if s.cfg.noneIndex = some i ∨ i = s.cfg.shiftIndex ∨ buttonLevel p i = s.btn.getD i false then none
  else some (.buttonChange (BitVec.ofNat 5 i) (buttonLevel p i)
    (if s.cfg.shiftIndex < i then buttonLevel p s.cfg.shiftIndex else s.shift))

/-- The ButtonChange events a button report produces, in ascending index (R151, R156). -/
def buttonEvents (s : State) (p : List Byte) : List Event :=
  (List.range s.cfg.buttonCount).filterMap (buttonEventAt s p)

/-- The EncoderChange event of a button report, if any (R151, R153, R154). -/
def turnEvents (s : State) (p : List Byte) : List Event :=
  if p.getD 4 0x00 = s.encLast then []
  else [.encoderChange 0x00 (encoderDirection s.encLast (p.getD 4 0x00)) (buttonLevel p s.cfg.shiftIndex)]

/-- The latches after a button report (R151). -/
def buttonsAfter (s : State) (p : List Byte) : List Bool :=
  (List.range s.cfg.buttonCount).map fun i =>
    if s.cfg.noneIndex = some i then s.btn.getD i false else buttonLevel p i

/-- The last sample before place `n` that names a pad (R162). -/
def lastSample (p : List Byte) (n : Nat) (pad : BitVec 4) : Option Nat :=
  (List.range n).reverse.find? fun k => decide (samplePad p k = pad)

/-- A pad's latch before sample `n`: set by the last sample that named it, else as it was (R160, R162). -/
def latchBefore (s : State) (p : List Byte) (n : Nat) (pad : BitVec 4) : Bool :=
  match lastSample p n pad with
  | some k => decide (s.cfg.padThr < (sampleValue p k).toNat)
  | none => s.padAct[pad.toFin]

/-- A pad's stored value before sample `n` (R160, R162). -/
def valueBefore (s : State) (p : List Byte) (n : Nat) (pad : BitVec 4) : BitVec 12 :=
  match lastSample p n pad with
  | some k => sampleValue p k
  | none => s.padLast[pad.toFin]

/-- The event of sample `j` of a pad report, if any (R160): a rise over the threshold of an idle pad, or a fall at or
under it of an active one. -/
def padEventAt (s : State) (p : List Byte) (j : Nat) : Option Event :=
  let pad := samplePad p j
  let value := (sampleValue p j).toNat
  if s.cfg.padThr < value ∧ latchBefore s p j pad = false then
    some (.padChange pad (BitVec.ofNat 8 (value / 16)) s.shift)
  else if value ≤ s.cfg.padThr ∧ latchBefore s p j pad = true then some (.padChange pad 0x00 s.shift)
  else none

/-- The events a pad report produces, in sample order (R160, R162). -/
def padEvents (s : State) (p : List Byte) : List Event := (List.range 16).filterMap (padEventAt s p)

/-- The transport's next read (U11): a listed one, past the list a free one. -/
def nextRead (s : State) : ReadResult :=
  match s.env.reads with
  | r :: _ => r
  | [] => Config.freeRead s.env.readDraws

/-- Whether the host asserts reset before the next operation of the tick or drain in progress (R230). -/
def resetIsNow : List HostAction → Bool
  | .assertReset 0 :: _ => true
  | _ => false

/-- The block is about to make read `i` of a ReadInput stage (R217), and no reset comes before it (R230). -/
abbrev Reading (s : State) (i : Nat) : Prop :=
  Running s ∧ s.env.resetLine = false ∧ s.host.reading = some i ∧ resetIsNow s.env.input = false

/-- The state with the sequencer at the end of a tick. -/
def ticked (s : State) (phase : Phase) (r : TickResult) : State :=
  { s with host := { phase := phase, reading := none, lastTick := some r } }

/-- One read taken from the transport. -/
def readTaken (s : State) : State := (drawRead s).2

end Sys2Proof.Machine
end

