-- ==== Sys2Proof/Certificates/Slice0/Obligations.lean ====
section
/-! DEFINITION. The statements for the provers, from the numbered rules of spec/. In each, `s` is any state and the
hypotheses are on the state and operands alone; `{ s with … }` says that every field not named is unchanged. -/

open Sys2Proof Sys2Proof.Machine

/-! ## Encoding (30_encoding.md) -/

/-- Decoding the encoding of a well-formed instruction gives it back, every operand at every value (R72 to R82). -/
def Obligations.DecodeAfterEncodeIsIdentity : Prop :=
  ∀ i : Instr, i.wellFormed = true → decodeItem (encode i) = .ok i

/-- What decodes is exactly the encoding of what it decodes to, so no item has two readings and no bit of one is
dropped (R72 to R82). -/
def Obligations.DecodedItemsAreEncodings : Prop :=
  ∀ (item : Item) (i : Instr), decodeItem item = .ok i → i.wellFormed = true ∧ encode i = item

/-- Words written out from the spec's encodings decode to the instructions they stand for (R74, R80, R72). -/
def Obligations.SampleWordsDecode : Prop :=
  decodeItem (.command [0x11, 0x03, 0x00, 0x0A, 0x00]) = .ok (.setpxOn 3 10) ∧
  decodeItem (.command [0x24, 0x07, 0x00]) = .ok (.invrow 7) ∧
  decodeItem (.command [0x30, 0x41, 0x01, 0x00, 0x0A, 0x00]) = .ok (.prcharOff 0x41 1 10) ∧
  decodeItem (.command [0x33, 0x07, 0x00, 0x64, 0x00, 0x02, 0x41, 0x42]) = .ok (.printOn 7 100 [0x41, 0x42]) ∧
  decodeItem (.command [0x28, 0x02, 0x00, 0xAA, 0x55]) = .ok (.copy [0xAA, 0x55]) ∧
  decodeItem (.command [0x40]) = .ok .flush ∧
  decodeItem (.report [0x01, 0x21, 0x04, 0x00, 0x00, 0x0F]) = .ok (.rptBtn [0x21, 0x04, 0x00, 0x00, 0x0F])

/-- R76: a command whose opcode is none of the 16 defined ones raises `F_ILLEGAL(OP)` and performs nothing, whatever
its length (R198). -/
def Obligations.ReservedOpcodeRaisesIllegal : Prop :=
  ∀ (s : State) (op : Byte) (body : List Byte) (rest : List HostAction),
    op ∉ definedOpcodes → Ready s (.command (op :: body)) rest →
    step s = .next (faulted (withInput s rest) 0x13 [op])

/-- R77: a command of a defined opcode whose length is not the one of R75 raises `F_MALFORMED(OP, length)` and
performs nothing; an empty command is malformed with `OP` reported as `0x00`. -/
def Obligations.WrongLengthRaisesMalformed : Prop :=
  (∀ (s : State) (rest : List HostAction), Ready s (.command []) rest →
    step s = .next (faulted (withInput s rest) 0x14 [0x00, 0x00, 0x00])) ∧
  (∀ (s : State) (op : Byte) (body : List Byte) (rest : List HostAction) (n : Nat),
    commandLength (fun k => (op :: body).getD k 0x00) = some n → body.length + 1 ≠ n →
    Ready s (.command (op :: body)) rest →
    ∃ f, Shows 2 (body.length + 1) f ∧ step s = .next (faulted (withInput s rest) 0x14 (op :: f)))

/-- When the item the block is about to take decodes to an instruction, the step is that instruction performed in
the state with the item taken. -/
def Obligations.StepPerformsTheDecodedItem : Prop :=
  ∀ (s : State) (item : Item) (rest : List HostAction) (i : Instr),
    Ready s item rest → decodeItem item = .ok i → step s = exec i (withInput s rest)

/-- R82, R94: the payload that the report syntax assembles names pad `j` in sample `j` with the listed value, 0 past
the list, and has `PAD_MIN` bytes. -/
def Obligations.AssembledPadReportHoldsItsSamples : Prop :=
  ∀ (padMin : Nat) (values : List (BitVec 12)), 32 ≤ padMin →
    ∃ p, assemblePadReport padMin values = 0x20 :: p ∧ p.length = padMin ∧
      ∀ j < 16, samplePad p j = BitVec.ofNat 4 j ∧ sampleValue p j = values.getD j 0

/-! ## Canvas commands (40_canvas.md) -/

/-- R101: SETPX in format `CXY` with the state in bit 0 of the opcode; outside the bound check (R100) a silent no-op,
past the buffer end (R64) `F_OVERRUN(index)`, and otherwise it sets exactly the pixel's bit and `dirty`. -/
def Obligations.SetPixelFollowsItsRule : Prop :=
  ∀ (s : State) (x y : U16) (on : Bool) (i : Instr),
    (on, i) ∈ [(true, Instr.setpxOn x y), (false, Instr.setpxOff x y)] → Running s → FrameInv s →
    decodeItem (.command [if on then 0x11 else 0x10, lowByte x, highByte x, lowByte y, highByte y]) = .ok i ∧
    (¬PassesBound s.cfg x.toNat y.toNat → exec i s = .next s) ∧
    (PassesBound s.cfg x.toNat y.toNat → frameLength s.cfg ≤ s.cfg.width * (y.toNat / 8) + x.toNat →
      ∃ f, Shows 4 (s.cfg.width * (y.toNat / 8) + x.toNat) f ∧ exec i s = .next (faulted s 0x11 f)) ∧
    (PassesBound s.cfg x.toNat y.toNat → s.cfg.width * (y.toNat / 8) + x.toNat < frameLength s.cfg →
      ∃ fb : Memory, exec i s = .next { s with fb := fb, dirty := true } ∧
        ∀ a k, (fb.read a).getLsbD k =
          if a = s.cfg.width * (y.toNat / 8) + x.toNat ∧ k = y.toNat % 8 then on else (s.fb.read a).getLsbD k)

/-- R102: GETPX in format `CXY` answers None outside the bound check, `F_OVERRUN(index)` past the end, and otherwise
the pixel's bit; nothing else changes. -/
def Obligations.GetPixelFollowsItsRule : Prop :=
  ∀ (s : State) (x y : U16), Running s →
    decodeItem (.command [0x12, lowByte x, highByte x, lowByte y, highByte y]) = .ok (.getpx x y) ∧
    (¬PassesBound s.cfg x.toNat y.toNat → exec (.getpx x y) s = .next { s with resp := s.resp ++ [[0x80]] }) ∧
    (PassesBound s.cfg x.toNat y.toNat → frameLength s.cfg ≤ s.cfg.width * (y.toNat / 8) + x.toNat →
      ∃ f, Shows 4 (s.cfg.width * (y.toNat / 8) + x.toNat) f ∧ exec (.getpx x y) s = .next (faulted s 0x11 f)) ∧
    (PassesBound s.cfg x.toNat y.toNat → s.cfg.width * (y.toNat / 8) + x.toNat < frameLength s.cfg →
      exec (.getpx x y) s = .next { s with resp := s.resp ++
        [[if (s.fb.read (s.cfg.width * (y.toNat / 8) + x.toNat)).getLsbD (y.toNat % 8) then 0x01 else 0x00]] })

/-- R108: inside the picture a SETPX is read back by a GETPX of the same pixel, and no other pixel of the picture
changes. -/
def Obligations.SetPixelIsReadBack : Prop :=
  ∀ (s : State) (x y : U16) (on : Bool) (i : Instr),
    (on, i) ∈ [(true, Instr.setpxOn x y), (false, Instr.setpxOff x y)] → Running s → FrameInv s →
    configFailure s.cfg = none → x.toNat < s.cfg.width → y.toNat < s.cfg.height →
    ∃ t u : State, exec i s = .next t ∧ exec (.getpx x y) t = .next u ∧
      u.resp = s.resp ++ [[if on then 0x01 else 0x00]] ∧
      ∀ x' y' : Nat, x' < s.cfg.width → y' < s.cfg.height → (x' ≠ x.toNat ∨ y' ≠ y.toNat) →
        pixelValue t x' y' = pixelValue s x' y'

/-- R103: FILL writes `0xFF` or `0x00` to every byte and sets `dirty`. -/
def Obligations.FillFollowsItsRule : Prop :=
  ∀ (s : State) (on : Bool) (i : Instr), (on, i) ∈ [(true, Instr.fillOn), (false, Instr.fillOff)] → Running s →
    decodeItem (.command [if on then 0x21 else 0x20]) = .ok i ∧
    ∃ fb : Memory, exec i s = .next { s with fb := fb, dirty := true } ∧
      ∀ a < frameLength s.cfg, fb.read a = if on then 0xFF else 0x00

/-- R110: FILL.ON then FILL.OFF leaves `dirty = 1` and every byte `0x00`. -/
def Obligations.FillOnThenOffClears : Prop :=
  ∀ s : State, Running s → ∃ t u : State, exec .fillOn s = .next t ∧ exec .fillOff t = .next u ∧
    u.dirty = true ∧ ∀ a < frameLength s.cfg, u.fb.read a = 0x00

/-- R104: INVERT complements every byte and sets `dirty`; two of them restore `FB` exactly but leave `dirty = 1`. -/
def Obligations.InvertFollowsItsRule : Prop :=
  decodeItem (.command [0x22]) = .ok .invert ∧ ∀ s : State, Running s → FrameInv s →
    (∃ fb : Memory, exec .invert s = .next { s with fb := fb, dirty := true } ∧
      ∀ a < frameLength s.cfg, fb.read a = ~~~(s.fb.read a)) ∧
    ∃ t : State, exec .invert s = .next t ∧ exec .invert t = .next { s with dirty := true }

/-- R109: two INVERTs leave every byte of `FB` as it was. -/
def Obligations.InvertTwiceRestores : Prop :=
  ∀ s : State, Running s →
    ∃ t u : State, exec .invert s = .next t ∧ exec .invert t = .next u ∧
      ∀ a < frameLength s.cfg, u.fb.read a = s.fb.read a

/-- R105: INVROW in format `CR`: a row past the end is a silent no-op, and otherwise it complements exactly the `W`
bytes of the row group and sets `dirty`; with a configuration that passed the check these are the rows below `H/8`. -/
def Obligations.InvertRowFollowsItsRule : Prop :=
  ∀ (s : State) (row : U16), Running s → FrameInv s →
    decodeItem (.command [0x24, lowByte row, highByte row]) = .ok (.invrow row) ∧
    (configFailure s.cfg = none →
      (row.toNat * s.cfg.width < frameLength s.cfg ↔ row.toNat < s.cfg.height / 8)) ∧
    (frameLength s.cfg ≤ row.toNat * s.cfg.width → exec (.invrow row) s = .next s) ∧
    (row.toNat * s.cfg.width < frameLength s.cfg →
      ∃ fb : Memory, exec (.invrow row) s = .next { s with fb := fb, dirty := true } ∧
        ∀ a, fb.read a =
          if row.toNat * s.cfg.width ≤ a ∧ a < row.toNat * s.cfg.width + s.cfg.width then ~~~(s.fb.read a)
          else s.fb.read a)

/-- INVROW twice on one row restores `FB` (R58, R105). -/
def Obligations.InvertRowTwiceRestores : Prop :=
  ∀ (s : State) (row : U16), Running s → FrameInv s → row.toNat * s.cfg.width < frameLength s.cfg →
    ∃ t : State, exec (.invrow row) s = .next t ∧ exec (.invrow row) t = .next { s with dirty := true }

/-- R106: COPY in format `CB` of exactly `LEN` bytes replaces the whole buffer and sets `dirty`; any other size is
`F_SIZE(n)` with nothing written. -/
def Obligations.CopyFollowsItsRule : Prop :=
  ∀ (s : State) (d : List Byte), Running s →
    (d.length < 65536 → decodeItem (.command
      (0x28 :: BitVec.ofNat 8 d.length :: BitVec.ofNat 8 (d.length / 256) :: d)) = .ok (.copy d)) ∧
    (d.length = frameLength s.cfg →
      ∃ fb : Memory, exec (.copy d) s = .next { s with fb := fb, dirty := true } ∧
        ∀ a < frameLength s.cfg, fb.read a = d.getD a 0x00) ∧
    (d.length ≠ frameLength s.cfg → ∃ f, Shows 2 d.length f ∧ exec (.copy d) s = .next (faulted s 0x12 f))

/-- R107: CLRDIRTY clears `dirty` and changes nothing else. -/
def Obligations.ClearDirtyFollowsItsRule : Prop :=
  decodeItem (.command [0x26]) = .ok .clrdirty ∧
  ∀ s : State, Running s → exec .clrdirty s = .next { s with dirty := false }

/-- R112, R33: RDSTAT answers the three STATUS bytes and changes nothing else. -/
def Obligations.ReadStatusFollowsItsRule : Prop :=
  decodeItem (.command [0x44]) = .ok .rdstat ∧ ∀ s : State, Running s →
    ∃ b : Byte, exec .rdstat s = .next { s with resp := s.resp ++
        [[b, BitVec.ofNat 8 s.evq.length, BitVec.ofNat 8 (s.evq.length / 256)]] } ∧
      b.getLsbD 0 = s.dirty ∧ b.getLsbD 1 = s.shift ∧ b.getLsbD 2 = decide (s.evq ≠ []) ∧
      ∀ k, 3 ≤ k → b.getLsbD k = false

/-! ## Glyph commands (41_glyph.md) -/

/-- R131, R132: PRCHAR in format `CG` skips a code that is not printable, raises `F_OVERRUN(max(base, LEN))` when a
byte lies past the end, and otherwise overwrites exactly the five glyph bytes and sets `dirty`. -/
def Obligations.PrintCharFollowsItsRule : Prop :=
  ∀ (s : State) (c : Byte) (row col : U16) (on : Bool) (i : Instr),
    (on, i) ∈ [(true, Instr.prcharOn c row col), (false, Instr.prcharOff c row col)] → Running s → FrameInv s →
    decodeItem (.command [if on then 0x31 else 0x30, c, lowByte row, highByte row, lowByte col, highByte col]) =
      .ok i ∧
    (¬Drawn c → exec i s = .next s) ∧
    (Drawn c → frameLength s.cfg ≤ s.cfg.width * row.toNat + col.toNat + 4 →
      ∃ f, Shows 4 (max (s.cfg.width * row.toNat + col.toNat) (frameLength s.cfg)) f ∧
        exec i s = .next (faulted s 0x11 f)) ∧
    (Drawn c → s.cfg.width * row.toNat + col.toNat + 4 < frameLength s.cfg →
      ∃ fb : Memory, exec i s = .next { s with fb := fb, dirty := true } ∧
        (∀ k < 5, fb.read (s.cfg.width * row.toNat + col.toNat + k) = drawnColumn s.cfg on c k) ∧
        ∀ a, a < s.cfg.width * row.toNat + col.toNat ∨ s.cfg.width * row.toNat + col.toNat + 5 ≤ a →
          fb.read a = s.fb.read a)

/-- R133: PRINT in format `CT` raises `F_OVERRUN` for its first overrunning printable character with nothing written;
otherwise each byte of a cell holds the glyph of the last printable character whose cell covers it, every other byte is
unchanged, and `dirty` is set when some character is printable. Character `j` starts `j*P_ADVANCE` columns on, whether
or not earlier ones are printable. -/
def Obligations.PrintFollowsItsRule : Prop :=
  ∀ (s : State) (row col : U16) (text : List Byte) (on : Bool) (i : Instr) (base : Nat → Nat),
    (on, i) ∈ [(true, Instr.printOn row col text), (false, Instr.printOff row col text)] → Running s → FrameInv s →
    (∀ j, base j = s.cfg.width * row.toNat + col.toNat + j * s.cfg.advance) →
    (text.length < 256 → decodeItem (.command (if on then 0x33 :: lowByte row :: highByte row :: lowByte col ::
        highByte col :: BitVec.ofNat 8 text.length :: text
      else 0x32 :: lowByte row :: highByte row :: lowByte col :: highByte col :: BitVec.ofNat 8 text.length :: text)) =
      .ok i) ∧
    (∀ j c, text[j]? = some c → Drawn c → frameLength s.cfg ≤ base j + 4 →
      (∀ j' c', j' < j → text[j']? = some c' → Drawn c' → base j' + 4 < frameLength s.cfg) →
      ∃ f, Shows 4 (max (base j) (frameLength s.cfg)) f ∧ exec i s = .next (faulted s 0x11 f)) ∧
    ((∀ j c, text[j]? = some c → Drawn c → base j + 4 < frameLength s.cfg) →
      ∃ fb : Memory, exec i s = .next { s with fb := fb, dirty := s.dirty || decide (∃ c ∈ text, Drawn c) } ∧
        (∀ j c k, text[j]? = some c → Drawn c → k < 5 →
          (∀ j' c', j < j' → text[j']? = some c' → Drawn c' →
            base j + k < base j' ∨ base j' + 5 ≤ base j + k) →
          fb.read (base j + k) = drawnColumn s.cfg on c k) ∧
        ∀ a, (∀ j c, text[j]? = some c → Drawn c → a < base j ∨ base j + 5 ≤ a) → fb.read a = s.fb.read a)

/-- R134: when no character overruns, PRINT is the sequence of PRCHAR commands `j*P_ADVANCE` columns apart (where
those columns are u16 values, so that the commands exist). -/
def Obligations.PrintEqualsPrintChars : Prop :=
  ∀ (s : State) (row col : U16) (text : List Byte), Running s →
    (∀ j c, text[j]? = some c → Drawn c →
      s.cfg.width * row.toNat + col.toNat + j * s.cfg.advance + 4 < frameLength s.cfg) →
    col.toNat + text.length * s.cfg.advance < 65536 →
    (execAll ((text.zipIdx).map fun cj => .prcharOn cj.1 row (col + BitVec.ofNat 16 (cj.2 * s.cfg.advance))) s =
      exec (.printOn row col text) s) ∧
    (execAll ((text.zipIdx).map fun cj => .prcharOff cj.1 row (col + BitVec.ofNat 16 (cj.2 * s.cfg.advance))) s =
      exec (.printOff row col text) s)

/-! ## Display-frame read-out (42_frame.md) -/

/-- R142, R83, R87, R141: FLUSH on another geometry raises `F_GEOMETRY(W, H)`; with `dirty = 0` it sends nothing and
answers `0x00`; with every message accepted it sends the four messages, clears `dirty` and answers `0x04`; refused at
message `k` it has sent messages `0` to `k`, keeps `dirty` and answers `0x80 | k`. -/
def Obligations.FlushFollowsItsRule : Prop :=
  decodeItem (.command [0x40]) = .ok .flush ∧ ∀ s : State, Running s →
    (¬(s.cfg.width = 128 ∧ s.cfg.height = 64) →
      ∃ f g, Shows 2 s.cfg.width f ∧ Shows 2 s.cfg.height g ∧ exec .flush s = .next (faulted s 0x15 (f ++ g))) ∧
    (s.cfg.width = 128 → s.cfg.height = 64 → s.dirty = false →
      exec .flush s = .next { s with resp := s.resp ++ [[0x00]] }) ∧
    (s.cfg.width = 128 → s.cfg.height = 64 → s.dirty = true → (∀ k < 4, ackAt s k = .accepted) →
      ∃ acks draws, exec .flush s = .next { s with
        dirty := false, disp := s.disp ++ (List.range 4).map (chunkMessage s), resp := s.resp ++ [[0x04]],
        env := { s.env with acks := acks, ackDraws := draws } }) ∧
    (∀ k < 4, s.cfg.width = 128 → s.cfg.height = 64 → s.dirty = true →
      (∀ j < k, ackAt s j = .accepted) → ackAt s k = .refused →
      ∃ acks draws, exec .flush s = .next { s with
        disp := s.disp ++ (List.range (k + 1)).map (chunkMessage s),
        resp := s.resp ++ [[BitVec.ofNat 8 (0x80 + k)]],
        env := { s.env with acks := acks, ackDraws := draws } })

/-! ## Report decoder and event queue (43_decoder.md) -/

/-- R150: a button report with a payload shorter than 5 bytes emits the InvalidReport record and changes nothing
else; a longer one is accepted and its bytes from `p[5]` on are ignored. -/
def Obligations.ButtonReportLengthFollowsItsRule : Prop :=
  ∀ (s : State) (p : List Byte), Running s →
    (p.length < 5 →
      exec (.rptBtn p) s = .next { s with err := s.err ++ [[0x01, 0x01, BitVec.ofNat 8 p.length, 0x00]] }) ∧
    (5 ≤ p.length → configFailure s.cfg = none → exec (.rptBtn p) s = exec (.rptBtn (p.take 5)) s)

/-- R151, R156, R157: a button report of 5 bytes or more writes every latch but the sentinel's, the shift
flag and `ENC_LAST`, requests the shift LED on a change of shift, and appends the ButtonChange events in ascending
index and then the encoder's event; if they do not fit the queue it raises `F_EVQ_OVERFLOW` and commits nothing. -/
def Obligations.ButtonReportFollowsItsRule : Prop :=
  ∀ (s : State) (p : List Byte), Running s → ButtonInv s → configFailure s.cfg = none → 5 ≤ p.length →
    decodeItem (.report (0x01 :: p)) = .ok (.rptBtn p) ∧
    (s.evq.length + (buttonEvents s p ++ turnEvents s p).length ≤ s.cfg.evqCap →
      exec (.rptBtn p) s = .next { s with
        btn := buttonsAfter s p, shift := buttonLevel p s.cfg.shiftIndex, encLast := p.getD 4 0x00,
        evq := s.evq ++ (buttonEvents s p ++ turnEvents s p),
        ledreq := s.ledreq ++ if buttonLevel p s.cfg.shiftIndex = s.shift then []
          else [[0x01, if buttonLevel p s.cfg.shiftIndex then 0x01 else 0x00]] }) ∧
    (s.cfg.evqCap < s.evq.length + (buttonEvents s p ++ turnEvents s p).length →
      exec (.rptBtn p) s =
        .next (faulted s 0x16 [BitVec.ofNat 8 (buttonEvents s p ++ turnEvents s p).length]))

/-- R158: an accepted button report fed again right after itself produces no event, no LED request and no state
change. -/
def Obligations.RepeatedButtonReportChangesNothing : Prop :=
  ∀ (s t : State) (p : List Byte), Running s → s.btn.length = s.cfg.buttonCount → 5 ≤ p.length →
    exec (.rptBtn p) s = .next t → Running t → exec (.rptBtn p) t = .next t

/-- R153: for a changed raw value the direction is Up exactly when the value rose or went from 15 to 0, except that 0
to 15 is Down. -/
def Obligations.EncoderDirectionFollowsItsRule : Prop :=
  ∀ old new : Byte, old ≠ new →
    (encoderDirection old new = .up ↔
      (old.toNat < new.toNat ∨ (old.toNat = 15 ∧ new.toNat = 0)) ∧ ¬(old.toNat = 0 ∧ new.toNat = 15))

/-- R159, R82: a pad report with a payload shorter than `PAD_MIN` emits the InvalidReport record and changes nothing
else; in a longer one the bytes from `p[32]` on carry no sample and are ignored. -/
def Obligations.PadReportLengthFollowsItsRule : Prop :=
  ∀ (s : State) (p : List Byte), Running s →
    (p.length < s.cfg.padMin → exec (.rptPad p) s = .next { s with
      err := s.err ++ [[0x01, 0x20, BitVec.ofNat 8 p.length, BitVec.ofNat 8 (p.length / 256)]] }) ∧
    (∀ q : List Byte, s.cfg.padMin ≤ p.length → q.length = p.length → q.take 32 = p.take 32 →
      exec (.rptPad q) s = exec (.rptPad p) s)

/-- R160, R162: a pad report of `PAD_MIN` bytes or more takes its 16 samples in order; each compares its value with
`PAD_THR` against the latch as the samples before it left it, and the last sample that names a pad decides its latch
and stored value; if the events do not fit the queue it raises `F_EVQ_OVERFLOW` and commits nothing. -/
def Obligations.PadReportFollowsItsRule : Prop :=
  ∀ (s : State) (p : List Byte), Running s → s.cfg.padMin ≤ p.length →
    decodeItem (.report (0x20 :: p)) = .ok (.rptPad p) ∧
    (s.evq.length + (padEvents s p).length ≤ s.cfg.evqCap →
      exec (.rptPad p) s = .next { s with
        padAct := Vector.ofFn fun q => latchBefore s p 16 (BitVec.ofFin q)
        padLast := Vector.ofFn fun q => valueBefore s p 16 (BitVec.ofFin q)
        evq := s.evq ++ padEvents s p }) ∧
    (s.cfg.evqCap < s.evq.length + (padEvents s p).length →
      exec (.rptPad p) s = .next (faulted s 0x16 [BitVec.ofNat 8 (padEvents s p).length]))

/-- R161: every event a pad report appends is of one of its samples, and is a press whose velocity is the value
`>> 4`, between `(PAD_THR + 1) >> 4` and 255 and never 0 when `PAD_THR >= 15`, or a release with velocity 0. -/
def Obligations.PadVelocityIsInRange : Prop :=
  ∀ (s t : State) (p : List Byte), exec (.rptPad p) s = .next t →
    ∀ e ∈ t.evq.drop s.evq.length, ∃ j < 16, ∃ v : Byte, e = .padChange (samplePad p j) v s.shift ∧
      ((s.cfg.padThr < (sampleValue p j).toNat ∧ v.toNat = (sampleValue p j).toNat / 16 ∧
          (s.cfg.padThr + 1) / 16 ≤ v.toNat ∧ v.toNat ≤ 255 ∧ (15 ≤ s.cfg.padThr → v ≠ 0x00)) ∨
        ((sampleValue p j).toNat ≤ s.cfg.padThr ∧ v = 0x00))

/-- R166: one button report appends at most 32 events and one pad report at most 16, and the queue stays within its
capacity. -/
def Obligations.ReportsAppendFewEvents : Prop :=
  ∀ (s t : State) (p : List Byte), configFailure s.cfg = none → QueueInv s →
    (exec (.rptBtn p) s = .next t → t.evq.length ≤ s.evq.length + 32 ∧ QueueInv t) ∧
    (exec (.rptPad p) s = .next t → t.evq.length ≤ s.evq.length + 16 ∧ QueueInv t)

/-- R164: an empty report and a report with any tag but `0x01` and `0x20` are taken and change nothing. -/
def Obligations.OtherReportsAreIgnored : Prop :=
  (∀ (s : State) (r : List Byte), Running s → exec (.rptIgnored r) s = .next s) ∧
  ∀ (s : State) (r : List Byte) (rest : List HostAction),
    (∀ tag ∈ r.head?, tag ≠ 0x01 ∧ tag ≠ 0x20) → Ready s (.report r) rest → step s = .next (withInput s rest)

/-- R165: POPEV answers `0x00` on an empty queue, and otherwise the record of the oldest event, removed. -/
def Obligations.PopEventFollowsItsRule : Prop :=
  decodeItem (.command [0x50]) = .ok .popev ∧ ∀ s : State, Running s →
    (s.evq = [] → exec .popev s = .next { s with resp := s.resp ++ [[0x00]] }) ∧
    (∀ e rest, s.evq = e :: rest →
      exec .popev s = .next { s with evq := rest, resp := s.resp ++ [e.encode] })

/-- R90: the four bytes of each kind of event record. -/
def Obligations.EventRecordsFollowTheirLayout : Prop :=
  (∀ (button : BitVec 5) (pressed shift : Bool), Event.encode (.buttonChange button pressed shift) =
    [0x01, BitVec.ofNat 8 button.toNat, if pressed then 0x01 else 0x00, if shift then 0x01 else 0x00]) ∧
  (∀ (index : Byte) (d : Direction) (shift : Bool), Event.encode (.encoderChange index d shift) =
    [0x02, index, if d = .up then 0x01 else 0x02, if shift then 0x01 else 0x00]) ∧
  (∀ (pad : BitVec 4) (v : Byte) (shift : Bool), Event.encode (.padChange pad v shift) =
    [0x03, BitVec.ofNat 8 pad.toNat, v, if shift then 0x01 else 0x00])

/-! ## Faults (60_exceptions.md) -/

/-- R190: the error record of each fault, for numbers that fit their fields. -/
def Obligations.FaultRecordsFollowTheTable : Prop :=
  (∀ n < 2 ^ 32, BlockFault.record (.overrun n) =
    [0x11, BitVec.ofNat 8 n, BitVec.ofNat 8 (n / 256), BitVec.ofNat 8 (n / 65536), BitVec.ofNat 8 (n / 16777216)]) ∧
  (∀ n < 65536, BlockFault.record (.size n) = [0x12, BitVec.ofNat 8 n, BitVec.ofNat 8 (n / 256)]) ∧
  (∀ op, BlockFault.record (.illegal op) = [0x13, op]) ∧
  (∀ op, ∀ n < 65536,
    BlockFault.record (.malformed op n) = [0x14, op, BitVec.ofNat 8 n, BitVec.ofNat 8 (n / 256)]) ∧
  (∀ w < 65536, ∀ h < 65536, BlockFault.record (.geometry w h) =
    [0x15, BitVec.ofNat 8 w, BitVec.ofNat 8 (w / 256), BitVec.ofNat 8 h, BitVec.ofNat 8 (h / 256)]) ∧
  (∀ n < 256, BlockFault.record (.evqOverflow n) = [0x16, BitVec.ofNat 8 n])

/-- R195: whatever instruction records a fault, it writes nothing but `FAULT`, with a code of R190, and one `ERR`
record that begins with that code. -/
def Obligations.FaultEntryWritesNothingElse : Prop :=
  ∀ (i : Instr) (s t : State), exec i s = .next t → ¬Running t →
    t.fault ∈ faultCodes ∧ ∃ info, t = faulted s t.fault info

/-- R196: with a fault recorded no instruction is performed. -/
def Obligations.FaultedBlockPerformsNoInstruction : Prop :=
  ∀ (i : Instr) (s : State), ¬Running s → exec i s = .fault (.stuck s.fault)

/-- R196, R197: with a fault recorded and reset released the machine has no step unless the host asserts reset, and
then the step is that reset; that the actions before it are discarded is read from R230 (log 7). -/
def Obligations.OnlyResetLeavesTheFaultState : Prop :=
  ∀ s : State, ¬Running s → s.env.resetLine = false →
    ((∀ n, HostAction.assertReset n ∉ s.env.input) → step s = .fault (.stuck s.fault)) ∧
    (∀ before n after, s.env.input = before ++ HostAction.assertReset n :: after →
      (∀ m, HostAction.assertReset m ∉ before) → step s = .next (performReset after s))

/-- U20, R234: an item presented while reset is asserted, outside the host's contract, is rejected by name: the model's
choice (log 8). -/
def Obligations.ItemDuringResetIsRejected : Prop :=
  ∀ (s : State) (item : Item) (rest : List HostAction), s.env.resetLine = true →
    s.env.input = .deliver item :: rest → step s = .refused .itemDuringReset

/-! ## Whole-machine rules -/

/-- R24, R37: among all instructions `dirty` is set only by the canvas and glyph writers and cleared only by CLRDIRTY
and FLUSH. -/
def Obligations.DirtyIsWrittenOnlyByItsWriters : Prop :=
  ∀ (i : Instr) (s t : State), exec i s = .next t → t.dirty ≠ s.dirty →
    (t.dirty = false ∧ (i = .clrdirty ∨ i = .flush)) ∨
    (t.dirty = true ∧ (i = .fillOn ∨ i = .fillOff ∨ i = .invert ∨ (∃ row, i = .invrow row) ∨
      (∃ d, i = .copy d) ∨ (∃ x y, i = .setpxOn x y ∨ i = .setpxOff x y) ∨
      (∃ c row col, i = .prcharOn c row col ∨ i = .prcharOff c row col) ∨
      ∃ row col text, i = .printOn row col text ∨ i = .printOff row col text))

/-- An instruction that changes `FB` leaves `dirty = 1`; in particular GETPX, RDSTAT, POPEV, CLRDIRTY, FLUSH and
every report leave `FB` unchanged (R24, R63). -/
def Obligations.FrameWritersSetDirty : Prop :=
  ∀ (i : Instr) (s t : State), exec i s = .next t → t.fb ≠ s.fb →
    t.dirty = true ∧ i ≠ .rdstat ∧ i ≠ .popev ∧ i ≠ .clrdirty ∧ i ≠ .flush ∧
      (∀ x y, i ≠ .getpx x y) ∧ (∀ p, i ≠ .rptBtn p) ∧ (∀ p, i ≠ .rptPad p) ∧ ∀ r, i ≠ .rptIgnored r

/-- The button latches, the shift flag, `ENC_LAST` and `LEDREQ` are written by button reports only, the pad latches
and values by pad reports only (R26 to R30). -/
def Obligations.DecoderStateIsWrittenOnlyByReports : Prop :=
  ∀ (i : Instr) (s t : State), exec i s = .next t →
    ((∀ p, i ≠ .rptBtn p) →
      t.btn = s.btn ∧ t.shift = s.shift ∧ t.encLast = s.encLast ∧ t.ledreq = s.ledreq) ∧
    ((∀ p, i ≠ .rptPad p) → t.padAct = s.padAct ∧ t.padLast = s.padLast)

/-- Output streams only grow, in the order records are produced (R34, R60). -/
def Obligations.OutputStreamsOnlyGrow : Prop :=
  ∀ (i : Instr) (s t : State), exec i s = .next t →
    s.resp <+: t.resp ∧ s.disp <+: t.disp ∧ s.ledreq <+: t.ledreq ∧ s.err <+: t.err

/-- The event queue is first in, first out: an instruction appends at its end, or POPEV takes its head (R31, R60). -/
def Obligations.EventQueueIsFirstInFirstOut : Prop :=
  ∀ (i : Instr) (s t : State), exec i s = .next t →
    s.evq <+: t.evq ∨ (i = .popev ∧ ∃ e, s.evq = e :: t.evq)

/-- The configuration is never written (R36). -/
def Obligations.ConfigurationNeverChanges : Prop :=
  ∀ s t : State, step s = .next t → t.cfg = s.cfg

/-- The fault state is sticky: a step that leaves `FAULT = 0x00` where a fault was recorded is a reset, or the release
of the reset input leaves it as it was (R35, R197). -/
def Obligations.FaultIsClearedOnlyByReset : Prop :=
  ∀ s t : State, step s = .next t → ¬Running s → t.fault = s.fault ∨ ∃ rest, t = performReset rest s

/-- The headline invariant: every step from a state that meets it gives a state that meets it (R23, R26, R27, R30,
R31, R35, R217, R232; log 3, log 11). -/
def Obligations.StepKeepsTheInvariant : Prop :=
  ∀ s t : State, Inv s → step s = .next t → Inv t

/-! ## Reset (70_reset_and_hazards.md) -/

/-- The state right after reset meets the invariant, whatever the configuration (R230). -/
def Obligations.ResetMeetsTheInvariant : Prop :=
  Inv State.reset ∧ ∀ cfg : Config, Inv (State.initial cfg)

/-- R230, R22, R231: a reset gives every state element its reset value, whatever state it found and whatever the
configuration; with a configuration that passes the check `FB` holds INIT_IMAGE and no fault is recorded, with one
that fails `FAULT` is `0x10` and `ERR` holds the one record of the reason; the sequencer is at SendFrame. -/
def Obligations.ResetGivesTheResetValues : Prop :=
  (∀ cfg : Config, ResetValues cfg (State.initial cfg)) ∧
  ∀ (s : State) (rest : List HostAction), ResetValues s.cfg (performReset rest s)

/-- Reset may be asserted at any time and is one step (R220, R230). In every state a reset the host asserts now is the
next step: with nothing in progress, before any read of a ReadInput stage, with a fault recorded, and while reset is
asserted; and so it is before any POPEV of a drain. Where no stage is in progress a reset waits for nothing, whatever
its count (the count is the model's, log 19). Releasing reset changes no state element (R234; the line's level is the
model's, log 8). -/
def Obligations.ResetIsPossibleAtAnyTime : Prop :=
  ∀ (s : State) (rest : List HostAction),
    step (withInput s (.assertReset 0 :: rest)) = .next (performReset rest s) ∧
    (Running s → s.env.resetLine = false → s.host.reading = none →
      step (withInput s (.drain :: .assertReset 0 :: rest)) = .next (performReset rest s)) ∧
    (s.env.resetLine = true ∨ ¬Running s ∨ s.host.reading = none → ∀ n,
      step (withInput s (.assertReset n :: rest)) = .next (performReset rest s)) ∧
    (s.env.resetLine = true → step (withInput s (.releaseReset :: rest)) =
      .next { s with env := { s.env with input := rest, resetLine := false } })

/-- No stage puts a reset off: one asserted for `n` reads on acts at most `n + 1` steps later, whatever the transport
and the block answer meanwhile (R220, R230; the count is the model's, log 19). -/
def Obligations.NoStagePutsResetOff : Prop :=
  ∀ (n : Nat) (s : State) (rest : List HostAction), s.env.input = .assertReset n :: rest →
    ∃ k ≤ n, ∃ t, core.run k s = .next t ∧ core.run (k + 1) s = .next (performReset rest t)

/-- The parameters this hardware fixes (R9, R11, R13, R14), and no fault, in the state right after reset; the OPEN ones
are the model's choice (log 2). -/
def Obligations.HardwareParameters : Prop :=
  State.reset.cfg.width = 128 ∧ State.reset.cfg.height = 64 ∧ frameLength State.reset.cfg = 1024 ∧
  State.reset.cfg.bound = .compat ∧ State.reset.cfg.padMin = 64 ∧ State.reset.cfg.padThr = 512 ∧
  State.reset.cfg.evqCap = 1024 ∧ State.reset.cfg.initImage = none ∧ Running State.reset

/-- R232: the constraints are checked in order, and a reset raises `F_CONFIG` with the reason of the first that
fails. -/
def Obligations.ConfigurationIsCheckedInOrder : Prop :=
  ∀ (cfg : Config) (c1 c2 c3 c4 c5 c6 c7 c8 : Prop),
    (c1 ↔ 8 ≤ cfg.height ∧ cfg.height % 8 = 0) → (c2 ↔ 1 ≤ cfg.width ∧ cfg.width ≤ 65535) →
    (c3 ↔ ∀ image, cfg.initImage = some image → image.length = cfg.width * cfg.height / 8) →
    (c4 ↔ cfg.font.length = 96 ∧ ∀ g ∈ cfg.font, g.length = 5) →
    (c5 ↔ cfg.buttonCount ≤ 32 ∧ cfg.shiftIndex < cfg.buttonCount ∧
      (∀ n, cfg.noneIndex = some n → n < cfg.buttonCount) ∧ cfg.noneIndex ≠ some cfg.shiftIndex) →
    (c6 ↔ 1 ≤ cfg.evqCap ∧ cfg.evqCap ≤ 65535) → (c7 ↔ 32 ≤ cfg.padMin ∧ cfg.padThr ≤ 4095) →
    (c8 ↔ 1 ≤ cfg.advance) →
    (¬c1 → RaisesConfig cfg 0x01) ∧ (c1 → ¬c2 → RaisesConfig cfg 0x02) ∧
    (c1 → c2 → ¬c3 → RaisesConfig cfg 0x03) ∧ (c1 → c2 → c3 → ¬c4 → RaisesConfig cfg 0x04) ∧
    (c1 → c2 → c3 → c4 → ¬c5 → RaisesConfig cfg 0x05) ∧
    (c1 → c2 → c3 → c4 → c5 → ¬c6 → RaisesConfig cfg 0x06) ∧
    (c1 → c2 → c3 → c4 → c5 → c6 → ¬c7 → RaisesConfig cfg 0x07) ∧
    (c1 → c2 → c3 → c4 → c5 → c6 → c7 → ¬c8 → RaisesConfig cfg 0x08) ∧
    (c1 → c2 → c3 → c4 → c5 → c6 → c7 → c8 → Running (State.initial cfg) ∧ (State.initial cfg).err = [])

/-! ## The host (60_exceptions.md section 6) -/

/-- A SendFrame tick is a FLUSH whose answer ends the tick: a refused message is a TransportError and the phase stays,
any other answer completes the stage and the next one is SendLeds (R214, R215, R219). -/
def Obligations.SendFrameTickFlushes : Prop :=
  ∀ (s t : State) (rest : List HostAction), Running s → s.env.resetLine = false → s.host.reading = none →
    s.host.phase = .sendFrame → s.env.input = .tick :: rest →
    exec .flush (withInput s rest) = .next t → Running t →
    ∃ b : Byte, t.resp = s.resp ++ [[b]] ∧
      step s = .next (if 0x80 ≤ b.toNat then ticked t .sendFrame .transportError else ticked t .sendLeds .done)

/-- A SendLeds tick touches no block state and goes on to ReadInput, and a ReadInput tick begins its reads (R214,
R216, R217; without the LedBank's own transmit, log 18; a step for the start of the reads, log 11). -/
def Obligations.OtherTicksAdvance : Prop :=
  ∀ (s : State) (rest : List HostAction), Running s → s.env.resetLine = false → s.host.reading = none →
    s.env.input = .tick :: rest →
    (s.host.phase = .sendLeds → step s = .next (ticked (withInput s rest) .readInput .done)) ∧
    (s.host.phase = .readInput →
      step s = .next { withInput s rest with host := { s.host with reading := some 0 } })

/-- The ReadInput stage ends with the phase advanced after 32 reads or on a read of 0 bytes, and with a TransportError
and the phase kept on a failed read (R214, R217, R219), unless a reset comes before the read (R230); that each read is
a step, and how a pending reset is counted, are the model's (log 11, log 19). -/
def Obligations.ReadStageEnds : Prop :=
  ∀ (s : State) (i : Nat), Reading s i → s.host.phase = .readInput →
    (32 ≤ i → step s = .next (ticked (counted s) .sendFrame .done)) ∧
    (i < 32 → nextRead s = .bytes [] → step s = .next (ticked (readTaken (counted s)) .sendFrame .done)) ∧
    (i < 32 → nextRead s = .error → step s = .next (ticked (readTaken (counted s)) .readInput .transportError))

/-- A read that returns bytes is delivered to port R, except a pad report on a read that is not a sampled one, which
is dropped; an InvalidReport record ends the tick with the phase kept, otherwise the next read follows (R217, R219),
unless a reset comes before the read (R230; a step a read, log 11; a pending reset is counted, log 19). -/
def Obligations.ReadsAreDeliveredOrDropped : Prop :=
  ∀ (s : State) (i : Nat) (b : Byte) (bs : List Byte), Reading s i → i < 32 → nextRead s = .bytes (b :: bs) →
    (b = 0x20 → i % s.cfg.padN.val ≠ 0 →
      step s = .next { readTaken (counted s) with host := { s.host with reading := some (i + 1) } }) ∧
    (b ≠ 0x20 ∨ i % s.cfg.padN.val = 0 →
      ∃ t, exec (decodeReport (b :: bs)) (readTaken (counted s)) = .next t ∧
        (Running t → t.err = s.err →
          step s = .next { t with host := { s.host with reading := some (i + 1) } }) ∧
        (Running t → ∀ r, t.err = s.err ++ [r] → step s = .next (ticked t s.host.phase (.invalidReport r))))

/-- The phase changes only when a stage completes, and then to the next one in the order SendFrame, SendLeds,
ReadInput; a reset puts it back to SendFrame (R214, R219, R231). -/
def Obligations.PhaseAdvancesOnlyOnCompletion : Prop :=
  ∀ s t : State, step s = .next t → t.host.phase ≠ s.host.phase →
    (t.host.lastTick = some .done ∧ t.host.reading = none ∧ t.host.phase = s.host.phase.following) ∨
    ∃ rest, t = performReset rest s

/-- A drain takes one POPEV for each event and one more, answers every event's record oldest first and then `0x00`,
and leaves the queue empty (R95, R220), when no reset is asserted meanwhile. A reset asserted `n` POPEVs on, with `n` at
most the number of events, cuts it short; a later one finds it finished (R230; a step a POPEV, log 11; the count is the
model's, log 19). -/
def Obligations.DrainEmptiesTheQueue : Prop :=
  ∀ (s : State) (rest : List HostAction), Running s → s.env.resetLine = false → s.host.reading = none →
    ((∀ n rest', rest ≠ .assertReset n :: rest') → s.env.input = .drain :: rest →
      core.run (s.evq.length + 1) s =
        .next { withInput s rest with evq := [], resp := s.resp ++ s.evq.map Event.encode ++ [[0x00]] }) ∧
    (∀ n ≤ s.evq.length, s.env.input = .drain :: .assertReset n :: rest →
      core.run n s = .next { withInput s (.drain :: .assertReset 0 :: rest) with
        evq := s.evq.drop n, resp := s.resp ++ (s.evq.take n).map Event.encode } ∧
      core.run (n + 1) s = .next (performReset rest s)) ∧
    (∀ n, s.env.input = .drain :: .assertReset (s.evq.length + 1 + n) :: rest →
      core.run (s.evq.length + 1) s = .next { withInput s (.assertReset n :: rest) with
        evq := [], resp := s.resp ++ s.evq.map Event.encode ++ [[0x00]] })
end

