-- ==== Sys2Proof/Laws/Memory.lean ====
section
/-! SUPPORT. Laws of the framebuffer operations: what each reads as, that each keeps the canonical form, and that
canonical memories with equal bytes are equal. -/

namespace Sys2Proof.Machine

@[simp] theorem Memory.read_nil (a : Nat) : Memory.read [] a = unlistedByte := rfl

theorem Memory.read_eq_unlisted {m : Memory} {a : Nat} (h : ∀ c ∈ m, c.1 ≠ a) :
    m.read a = unlistedByte := by
  induction m with
  | nil => rfl
  | cons c m ih =>
    obtain ⟨k, v⟩ := c
    have hk : k ≠ a := h (k, v) (by simp)
    simpa [Memory.read, hk] using ih fun c hc => h c (by simp [hc])

theorem Memory.read_cons (a b : Nat) (v : Byte) (m : Memory) (h : ∀ c ∈ m, a < c.1) :
    (Memory.cons a v m).read b = if b = a then v else m.read b := by
  unfold Memory.cons
  by_cases hb : b = a
  · subst hb
    by_cases hv : v = unlistedByte
    · simp [hv, Memory.read_eq_unlisted fun c hc => Nat.ne_of_gt (h c hc)]
    · simp [hv, Memory.read]
  · by_cases hv : v = unlistedByte
    · simp [hv, hb]
    · simp [hv, Memory.read, hb, Ne.symm hb]

theorem Memory.wf_tail {c : Host.Cell} {m : Memory} (h : Memory.wf (c :: m)) : m.wf :=
  ⟨(List.pairwise_cons.1 h.1).2, fun d hd => h.2 d (by simp [hd])⟩

theorem Memory.wf_head_lt {c : Host.Cell} {m : Memory} (h : Memory.wf (c :: m)) : ∀ d ∈ m, c.1 < d.1 :=
  (List.pairwise_cons.1 h.1).1

theorem Memory.mem_cons {a : Nat} {v : Byte} {m : Memory} {c : Host.Cell}
    (h : c ∈ Memory.cons a v m) : c = (a, v) ∨ c ∈ m := by
  unfold Memory.cons at h
  split at h
  · exact .inr h
  · simpa using h

theorem Memory.wf_cons {a : Nat} {v : Byte} {m : Memory} (hm : m.wf) (h : ∀ c ∈ m, a < c.1) :
    (Memory.cons a v m).wf := by
  unfold Memory.cons
  split
  · exact hm
  · next hv =>
    refine ⟨List.pairwise_cons.2 ⟨h, hm.1⟩, fun c hc => ?_⟩
    rcases List.mem_cons.1 hc with rfl | hc
    · exact hv
    · exact hm.2 c hc

theorem Memory.mem_write {m : Memory} {a : Nat} {v : Byte} {c : Host.Cell}
    (h : c ∈ m.write a v) : c = (a, v) ∨ c ∈ m := by
  induction m with
  | nil => exact Memory.mem_cons h
  | cons d m ih =>
    obtain ⟨k, w⟩ := d
    simp only [Memory.write] at h
    split at h
    · exact Memory.mem_cons h
    · split at h
      · exact (Memory.mem_cons h).imp id fun h => by simp [h]
      · rcases List.mem_cons.1 h with rfl | h
        · exact .inr (by simp)
        · exact (ih h).imp id fun h => by simp [h]

/-- A write keeps the canonical form. -/
theorem Memory.wf_write {m : Memory} (hm : m.wf) (a : Nat) (v : Byte) : (m.write a v).wf := by
  induction m with
  | nil => exact Memory.wf_cons hm (by simp)
  | cons d m ih =>
    obtain ⟨k, w⟩ := d
    have hlt := Memory.wf_head_lt hm
    simp only [Memory.write]
    split
    · next hak =>
      refine Memory.wf_cons hm fun c hc => ?_
      rcases List.mem_cons.1 hc with rfl | hc
      · exact hak
      · exact Nat.lt_trans hak (hlt c hc)
    · split
      · next hak => subst hak; exact Memory.wf_cons (Memory.wf_tail hm) hlt
      · next h1 h2 =>
        have ht := ih (Memory.wf_tail hm)
        refine ⟨List.pairwise_cons.2 ⟨fun c hc => ?_, ht.1⟩, fun c hc => ?_⟩
        · rcases Memory.mem_write hc with rfl | hc
          · show k < a; omega
          · exact hlt c hc
        · rcases List.mem_cons.1 hc with rfl | hc
          · exact hm.2 _ (by simp)
          · exact ht.2 c hc

/-- A read after a write: the written value at its address, the old byte everywhere else. -/
theorem Memory.read_write {m : Memory} (hm : m.wf) (a b : Nat) (v : Byte) :
    (m.write a v).read b = if b = a then v else m.read b := by
  induction m with
  | nil => simp [Memory.write, Memory.read_cons]
  | cons d m ih =>
    obtain ⟨k, w⟩ := d
    have hlt := Memory.wf_head_lt hm
    simp only [Memory.write]
    split
    · next hak =>
      refine Memory.read_cons a b v _ fun c hc => ?_
      rcases List.mem_cons.1 hc with rfl | hc
      · exact hak
      · exact Nat.lt_trans hak (hlt c hc)
    · split
      · next hak =>
        subst hak
        rw [Memory.read_cons _ _ _ _ hlt]
        by_cases hb : b = a
        · simp [hb]
        · simp [hb, Memory.read, Ne.symm hb]
      · next h1 h2 =>
        simp only [Memory.read, ih (Memory.wf_tail hm)]
        by_cases hk : k = b
        · subst hk; simp [Ne.symm h2]
        · simp [hk]

theorem Memory.below_write {m : Memory} {n : Nat} (hm : m.below n) {a : Nat} (ha : a < n) (v : Byte) :
    (m.write a v).below n := fun c hc => by
  rcases Memory.mem_write hc with rfl | hc
  · exact ha
  · exact hm c hc

theorem Memory.wf_writeBytes {m : Memory} (hm : m.wf) (a : Nat) (vs : List Byte) :
    (m.writeBytes a vs).wf := by
  induction vs generalizing m a with
  | nil => exact hm
  | cons v vs ih => exact ih (Memory.wf_write hm a v) (a + 1)

theorem Memory.below_writeBytes {m : Memory} {n : Nat} (hm : m.below n) {a : Nat} {vs : List Byte}
    (ha : a + vs.length ≤ n) : (m.writeBytes a vs).below n := by
  induction vs generalizing m a with
  | nil => exact hm
  | cons v vs ih =>
    simp only [List.length_cons] at ha
    exact ih (Memory.below_write hm (by omega) v) (by omega)

/-- Reading after consecutive writes: the written bytes in their range, the old byte elsewhere. -/
theorem Memory.read_writeBytes {m : Memory} (hm : m.wf) (a b : Nat) (vs : List Byte) :
    (m.writeBytes a vs).read b =
      if a ≤ b ∧ b < a + vs.length then vs.getD (b - a) unlistedByte else m.read b := by
  induction vs generalizing m a with
  | nil =>
    have : ¬(a ≤ b ∧ b < a + ([] : List Byte).length) := by simp
    rw [if_neg this]; rfl
  | cons v vs ih =>
    rw [Memory.writeBytes, ih (Memory.wf_write hm a v), Memory.read_write hm]
    simp only [List.length_cons]
    by_cases h1 : b = a
    · subst h1
      rw [if_neg (by omega), if_pos rfl, if_pos (by omega)]
      simp
    · by_cases h2 : a + 1 ≤ b ∧ b < a + 1 + vs.length
      · rw [if_pos h2, if_pos (by omega)]
        have : b - a = (b - (a + 1)) + 1 := by omega
        rw [this, List.getD_cons_succ]
      · rw [if_neg h2, if_neg h1, if_neg (by omega)]

theorem Memory.mem_ofBytes {a : Nat} {vs : List Byte} {c : Host.Cell}
    (h : c ∈ Memory.ofBytes a vs) : a ≤ c.1 ∧ c.1 < a + vs.length := by
  induction vs generalizing a with
  | nil => simp [Memory.ofBytes] at h
  | cons v vs ih =>
    simp only [List.length_cons]
    rcases Memory.mem_cons h with rfl | h
    · show a ≤ a ∧ a < a + (vs.length + 1); omega
    · have := ih h; omega

theorem Memory.wf_ofBytes (a : Nat) (vs : List Byte) : (Memory.ofBytes a vs).wf := by
  induction vs generalizing a with
  | nil => exact ⟨List.Pairwise.nil, by simp [Memory.ofBytes]⟩
  | cons v vs ih => exact Memory.wf_cons (ih (a + 1)) fun c hc => (Memory.mem_ofBytes hc).1

theorem Memory.below_ofBytes {vs : List Byte} {n : Nat} (h : vs.length ≤ n) :
    (Memory.ofBytes 0 vs).below n := fun c hc => by
  have := Memory.mem_ofBytes hc; omega

/-- A memory made of bytes reads as those bytes. -/
theorem Memory.read_ofBytes (a b : Nat) (vs : List Byte) :
    (Memory.ofBytes a vs).read b = if a ≤ b then vs.getD (b - a) unlistedByte else unlistedByte := by
  induction vs generalizing a with
  | nil => simp [Memory.ofBytes]
  | cons v vs ih =>
    rw [Memory.ofBytes, Memory.read_cons _ _ _ _ fun c hc => (Memory.mem_ofBytes hc).1, ih]
    by_cases h1 : b = a
    · subst h1; simp
    · by_cases h2 : a + 1 ≤ b
      · rw [if_neg h1, if_pos h2, if_pos (by omega)]
        have : b - a = (b - (a + 1)) + 1 := by omega
        rw [this, List.getD_cons_succ]
      · rw [if_neg h1, if_neg h2, if_neg (by omega)]

@[simp] theorem Memory.length_slice (m : Memory) (a n : Nat) : (m.slice a n).length = n := by
  simp [Memory.slice]

theorem Memory.getD_slice (m : Memory) (a n k : Nat) (d : Byte) (h : k < n) :
    (m.slice a n).getD k d = m.read (a + k) := by
  simp [Memory.slice, List.getD_eq_getElem?_getD, h]

/-- Past the bound of a memory every byte reads as unlisted. -/
theorem Memory.read_of_below {m : Memory} {n a : Nat} (h : m.below n) (ha : n ≤ a) :
    m.read a = unlistedByte :=
  Memory.read_eq_unlisted fun c hc => by have := h c hc; omega

theorem Memory.read_head {c : Host.Cell} {m : Memory} : Memory.read (c :: m) c.1 = c.2 := by
  obtain ⟨k, v⟩ := c; simp [Memory.read]

/-- Canonical memories that read alike everywhere are the same data. -/
theorem Memory.ext {m n : Memory} (hm : m.wf) (hn : n.wf) (h : ∀ a, m.read a = n.read a) : m = n := by
  induction m generalizing n with
  | nil =>
    cases n with
    | nil => rfl
    | cons c n =>
      have := h c.1
      rw [Memory.read_head, Memory.read_nil] at this
      exact absurd this.symm (hn.2 c (by simp))
  | cons c m ih =>
    cases n with
    | nil =>
      have := h c.1
      rw [Memory.read_head, Memory.read_nil] at this
      exact absurd this (hm.2 c (by simp))
    | cons d n =>
      have hc := Memory.wf_head_lt hm
      have hd := Memory.wf_head_lt hn
      have low : ∀ {e : Host.Cell} {k : Memory} {a : Nat}, (∀ x ∈ k, e.1 < x.1) → a < e.1 →
          Memory.read (e :: k) a = unlistedByte := by
        intro e k a hk ha
        refine Memory.read_eq_unlisted fun x hx => ?_
        rcases List.mem_cons.1 hx with rfl | hx
        · omega
        · have := hk x hx; omega
      have h1 : c.1 = d.1 := by
        rcases Nat.lt_trichotomy c.1 d.1 with hlt | heq | hlt
        · have := h c.1
          rw [Memory.read_head, low hd hlt] at this
          exact absurd this (hm.2 c (by simp))
        · exact heq
        · have := h d.1
          rw [Memory.read_head, low hc hlt] at this
          exact absurd this.symm (hn.2 d (by simp))
      have h2 : c.2 = d.2 := by
        have := h c.1
        rw [Memory.read_head, h1, Memory.read_head] at this
        exact this
      have hcd : c = d := Prod.ext h1 h2
      subst hcd
      congr 1
      refine ih (Memory.wf_tail hm) (Memory.wf_tail hn) fun a => ?_
      by_cases ha : a = c.1
      · subst ha
        rw [Memory.read_eq_unlisted fun x hx => Nat.ne_of_gt (hc x hx),
          Memory.read_eq_unlisted fun x hx => Nat.ne_of_gt (hd x hx)]
      · have := h a
        obtain ⟨k, v⟩ := c
        simpa [Memory.read, Ne.symm ha] using this

end Sys2Proof.Machine
end

