-- ==== Sys2Proof/Laws/State.lean ====
section
/-! SUPPORT. One lemma for each field of State and each named update: what the update leaves in the field. -/

namespace Sys2Proof.Machine

@[simp] theorem writeFrame_cfg (m : Memory) (s : State) : (writeFrame m s).cfg = s.cfg := rfl
@[simp] theorem writeFrame_fb (m : Memory) (s : State) : (writeFrame m s).fb = m := rfl
@[simp] theorem writeFrame_dirty (m : Memory) (s : State) : (writeFrame m s).dirty = true := rfl
@[simp] theorem writeFrame_btn (m : Memory) (s : State) : (writeFrame m s).btn = s.btn := rfl
@[simp] theorem writeFrame_shift (m : Memory) (s : State) : (writeFrame m s).shift = s.shift := rfl
@[simp] theorem writeFrame_encLast (m : Memory) (s : State) : (writeFrame m s).encLast = s.encLast := rfl
@[simp] theorem writeFrame_padAct (m : Memory) (s : State) : (writeFrame m s).padAct = s.padAct := rfl
@[simp] theorem writeFrame_padLast (m : Memory) (s : State) : (writeFrame m s).padLast = s.padLast := rfl
@[simp] theorem writeFrame_evq (m : Memory) (s : State) : (writeFrame m s).evq = s.evq := rfl
@[simp] theorem writeFrame_fault (m : Memory) (s : State) : (writeFrame m s).fault = s.fault := rfl
@[simp] theorem writeFrame_resp (m : Memory) (s : State) : (writeFrame m s).resp = s.resp := rfl
@[simp] theorem writeFrame_disp (m : Memory) (s : State) : (writeFrame m s).disp = s.disp := rfl
@[simp] theorem writeFrame_ledreq (m : Memory) (s : State) : (writeFrame m s).ledreq = s.ledreq := rfl
@[simp] theorem writeFrame_err (m : Memory) (s : State) : (writeFrame m s).err = s.err := rfl
@[simp] theorem writeFrame_host (m : Memory) (s : State) : (writeFrame m s).host = s.host := rfl
@[simp] theorem writeFrame_env (m : Memory) (s : State) : (writeFrame m s).env = s.env := rfl

@[simp] theorem emitResp_cfg (r : Record) (s : State) : (emitResp r s).cfg = s.cfg := rfl
@[simp] theorem emitResp_fb (r : Record) (s : State) : (emitResp r s).fb = s.fb := rfl
@[simp] theorem emitResp_dirty (r : Record) (s : State) : (emitResp r s).dirty = s.dirty := rfl
@[simp] theorem emitResp_btn (r : Record) (s : State) : (emitResp r s).btn = s.btn := rfl
@[simp] theorem emitResp_shift (r : Record) (s : State) : (emitResp r s).shift = s.shift := rfl
@[simp] theorem emitResp_encLast (r : Record) (s : State) : (emitResp r s).encLast = s.encLast := rfl
@[simp] theorem emitResp_padAct (r : Record) (s : State) : (emitResp r s).padAct = s.padAct := rfl
@[simp] theorem emitResp_padLast (r : Record) (s : State) : (emitResp r s).padLast = s.padLast := rfl
@[simp] theorem emitResp_evq (r : Record) (s : State) : (emitResp r s).evq = s.evq := rfl
@[simp] theorem emitResp_fault (r : Record) (s : State) : (emitResp r s).fault = s.fault := rfl
@[simp] theorem emitResp_resp (r : Record) (s : State) : (emitResp r s).resp = s.resp ++ [r] := rfl
@[simp] theorem emitResp_disp (r : Record) (s : State) : (emitResp r s).disp = s.disp := rfl
@[simp] theorem emitResp_ledreq (r : Record) (s : State) : (emitResp r s).ledreq = s.ledreq := rfl
@[simp] theorem emitResp_err (r : Record) (s : State) : (emitResp r s).err = s.err := rfl
@[simp] theorem emitResp_host (r : Record) (s : State) : (emitResp r s).host = s.host := rfl
@[simp] theorem emitResp_env (r : Record) (s : State) : (emitResp r s).env = s.env := rfl

@[simp] theorem emitDisp_cfg (r : Record) (s : State) : (emitDisp r s).cfg = s.cfg := rfl
@[simp] theorem emitDisp_fb (r : Record) (s : State) : (emitDisp r s).fb = s.fb := rfl
@[simp] theorem emitDisp_dirty (r : Record) (s : State) : (emitDisp r s).dirty = s.dirty := rfl
@[simp] theorem emitDisp_btn (r : Record) (s : State) : (emitDisp r s).btn = s.btn := rfl
@[simp] theorem emitDisp_shift (r : Record) (s : State) : (emitDisp r s).shift = s.shift := rfl
@[simp] theorem emitDisp_encLast (r : Record) (s : State) : (emitDisp r s).encLast = s.encLast := rfl
@[simp] theorem emitDisp_padAct (r : Record) (s : State) : (emitDisp r s).padAct = s.padAct := rfl
@[simp] theorem emitDisp_padLast (r : Record) (s : State) : (emitDisp r s).padLast = s.padLast := rfl
@[simp] theorem emitDisp_evq (r : Record) (s : State) : (emitDisp r s).evq = s.evq := rfl
@[simp] theorem emitDisp_fault (r : Record) (s : State) : (emitDisp r s).fault = s.fault := rfl
@[simp] theorem emitDisp_resp (r : Record) (s : State) : (emitDisp r s).resp = s.resp := rfl
@[simp] theorem emitDisp_disp (r : Record) (s : State) : (emitDisp r s).disp = s.disp ++ [r] := rfl
@[simp] theorem emitDisp_ledreq (r : Record) (s : State) : (emitDisp r s).ledreq = s.ledreq := rfl
@[simp] theorem emitDisp_err (r : Record) (s : State) : (emitDisp r s).err = s.err := rfl
@[simp] theorem emitDisp_host (r : Record) (s : State) : (emitDisp r s).host = s.host := rfl
@[simp] theorem emitDisp_env (r : Record) (s : State) : (emitDisp r s).env = s.env := rfl

@[simp] theorem reportError_cfg (tag : Byte) (n : Nat) (s : State) : (reportError tag n s).cfg = s.cfg := rfl
@[simp] theorem reportError_fb (tag : Byte) (n : Nat) (s : State) : (reportError tag n s).fb = s.fb := rfl
@[simp] theorem reportError_dirty (tag : Byte) (n : Nat) (s : State) : (reportError tag n s).dirty = s.dirty := rfl
@[simp] theorem reportError_btn (tag : Byte) (n : Nat) (s : State) : (reportError tag n s).btn = s.btn := rfl
@[simp] theorem reportError_shift (tag : Byte) (n : Nat) (s : State) : (reportError tag n s).shift = s.shift := rfl
@[simp] theorem reportError_encLast (tag : Byte) (n : Nat) (s : State) : (reportError tag n s).encLast = s.encLast := rfl
@[simp] theorem reportError_padAct (tag : Byte) (n : Nat) (s : State) : (reportError tag n s).padAct = s.padAct := rfl
@[simp] theorem reportError_padLast (tag : Byte) (n : Nat) (s : State) : (reportError tag n s).padLast = s.padLast := rfl
@[simp] theorem reportError_evq (tag : Byte) (n : Nat) (s : State) : (reportError tag n s).evq = s.evq := rfl
@[simp] theorem reportError_fault (tag : Byte) (n : Nat) (s : State) : (reportError tag n s).fault = s.fault := rfl
@[simp] theorem reportError_resp (tag : Byte) (n : Nat) (s : State) : (reportError tag n s).resp = s.resp := rfl
@[simp] theorem reportError_disp (tag : Byte) (n : Nat) (s : State) : (reportError tag n s).disp = s.disp := rfl
@[simp] theorem reportError_ledreq (tag : Byte) (n : Nat) (s : State) : (reportError tag n s).ledreq = s.ledreq := rfl
@[simp] theorem reportError_err (tag : Byte) (n : Nat) (s : State) : (reportError tag n s).err = s.err ++ [invalidReportRecord tag n] := rfl
@[simp] theorem reportError_host (tag : Byte) (n : Nat) (s : State) : (reportError tag n s).host = s.host := rfl
@[simp] theorem reportError_env (tag : Byte) (n : Nat) (s : State) : (reportError tag n s).env = s.env := rfl

@[simp] theorem raise_cfg (f : BlockFault) (s : State) : (raise f s).cfg = s.cfg := rfl
@[simp] theorem raise_fb (f : BlockFault) (s : State) : (raise f s).fb = s.fb := rfl
@[simp] theorem raise_dirty (f : BlockFault) (s : State) : (raise f s).dirty = s.dirty := rfl
@[simp] theorem raise_btn (f : BlockFault) (s : State) : (raise f s).btn = s.btn := rfl
@[simp] theorem raise_shift (f : BlockFault) (s : State) : (raise f s).shift = s.shift := rfl
@[simp] theorem raise_encLast (f : BlockFault) (s : State) : (raise f s).encLast = s.encLast := rfl
@[simp] theorem raise_padAct (f : BlockFault) (s : State) : (raise f s).padAct = s.padAct := rfl
@[simp] theorem raise_padLast (f : BlockFault) (s : State) : (raise f s).padLast = s.padLast := rfl
@[simp] theorem raise_evq (f : BlockFault) (s : State) : (raise f s).evq = s.evq := rfl
@[simp] theorem raise_fault (f : BlockFault) (s : State) : (raise f s).fault = f.code := rfl
@[simp] theorem raise_resp (f : BlockFault) (s : State) : (raise f s).resp = s.resp := rfl
@[simp] theorem raise_disp (f : BlockFault) (s : State) : (raise f s).disp = s.disp := rfl
@[simp] theorem raise_ledreq (f : BlockFault) (s : State) : (raise f s).ledreq = s.ledreq := rfl
@[simp] theorem raise_err (f : BlockFault) (s : State) : (raise f s).err = s.err ++ [f.record] := rfl
@[simp] theorem raise_host (f : BlockFault) (s : State) : (raise f s).host = s.host := rfl
@[simp] theorem raise_env (f : BlockFault) (s : State) : (raise f s).env = s.env := rfl

@[simp] theorem faulted_cfg (s : State) (code : Byte) (info : List Byte) : (faulted s code info).cfg = s.cfg := rfl
@[simp] theorem faulted_fb (s : State) (code : Byte) (info : List Byte) : (faulted s code info).fb = s.fb := rfl
@[simp] theorem faulted_dirty (s : State) (code : Byte) (info : List Byte) : (faulted s code info).dirty = s.dirty := rfl
@[simp] theorem faulted_btn (s : State) (code : Byte) (info : List Byte) : (faulted s code info).btn = s.btn := rfl
@[simp] theorem faulted_shift (s : State) (code : Byte) (info : List Byte) : (faulted s code info).shift = s.shift := rfl
@[simp] theorem faulted_encLast (s : State) (code : Byte) (info : List Byte) : (faulted s code info).encLast = s.encLast := rfl
@[simp] theorem faulted_padAct (s : State) (code : Byte) (info : List Byte) : (faulted s code info).padAct = s.padAct := rfl
@[simp] theorem faulted_padLast (s : State) (code : Byte) (info : List Byte) : (faulted s code info).padLast = s.padLast := rfl
@[simp] theorem faulted_evq (s : State) (code : Byte) (info : List Byte) : (faulted s code info).evq = s.evq := rfl
@[simp] theorem faulted_fault (s : State) (code : Byte) (info : List Byte) : (faulted s code info).fault = code := rfl
@[simp] theorem faulted_resp (s : State) (code : Byte) (info : List Byte) : (faulted s code info).resp = s.resp := rfl
@[simp] theorem faulted_disp (s : State) (code : Byte) (info : List Byte) : (faulted s code info).disp = s.disp := rfl
@[simp] theorem faulted_ledreq (s : State) (code : Byte) (info : List Byte) : (faulted s code info).ledreq = s.ledreq := rfl
@[simp] theorem faulted_err (s : State) (code : Byte) (info : List Byte) : (faulted s code info).err = s.err ++ [code :: info] := rfl
@[simp] theorem faulted_host (s : State) (code : Byte) (info : List Byte) : (faulted s code info).host = s.host := rfl
@[simp] theorem faulted_env (s : State) (code : Byte) (info : List Byte) : (faulted s code info).env = s.env := rfl

@[simp] theorem withInput_cfg (s : State) (rest : List HostAction) : (withInput s rest).cfg = s.cfg := rfl
@[simp] theorem withInput_fb (s : State) (rest : List HostAction) : (withInput s rest).fb = s.fb := rfl
@[simp] theorem withInput_dirty (s : State) (rest : List HostAction) : (withInput s rest).dirty = s.dirty := rfl
@[simp] theorem withInput_btn (s : State) (rest : List HostAction) : (withInput s rest).btn = s.btn := rfl
@[simp] theorem withInput_shift (s : State) (rest : List HostAction) : (withInput s rest).shift = s.shift := rfl
@[simp] theorem withInput_encLast (s : State) (rest : List HostAction) : (withInput s rest).encLast = s.encLast := rfl
@[simp] theorem withInput_padAct (s : State) (rest : List HostAction) : (withInput s rest).padAct = s.padAct := rfl
@[simp] theorem withInput_padLast (s : State) (rest : List HostAction) : (withInput s rest).padLast = s.padLast := rfl
@[simp] theorem withInput_evq (s : State) (rest : List HostAction) : (withInput s rest).evq = s.evq := rfl
@[simp] theorem withInput_fault (s : State) (rest : List HostAction) : (withInput s rest).fault = s.fault := rfl
@[simp] theorem withInput_resp (s : State) (rest : List HostAction) : (withInput s rest).resp = s.resp := rfl
@[simp] theorem withInput_disp (s : State) (rest : List HostAction) : (withInput s rest).disp = s.disp := rfl
@[simp] theorem withInput_ledreq (s : State) (rest : List HostAction) : (withInput s rest).ledreq = s.ledreq := rfl
@[simp] theorem withInput_err (s : State) (rest : List HostAction) : (withInput s rest).err = s.err := rfl
@[simp] theorem withInput_host (s : State) (rest : List HostAction) : (withInput s rest).host = s.host := rfl
@[simp] theorem withInput_env (s : State) (rest : List HostAction) : (withInput s rest).env = { s.env with input := rest } := rfl

@[simp] theorem ticked_cfg (s : State) (p : Phase) (r : TickResult) : (ticked s p r).cfg = s.cfg := rfl
@[simp] theorem ticked_fb (s : State) (p : Phase) (r : TickResult) : (ticked s p r).fb = s.fb := rfl
@[simp] theorem ticked_dirty (s : State) (p : Phase) (r : TickResult) : (ticked s p r).dirty = s.dirty := rfl
@[simp] theorem ticked_btn (s : State) (p : Phase) (r : TickResult) : (ticked s p r).btn = s.btn := rfl
@[simp] theorem ticked_shift (s : State) (p : Phase) (r : TickResult) : (ticked s p r).shift = s.shift := rfl
@[simp] theorem ticked_encLast (s : State) (p : Phase) (r : TickResult) : (ticked s p r).encLast = s.encLast := rfl
@[simp] theorem ticked_padAct (s : State) (p : Phase) (r : TickResult) : (ticked s p r).padAct = s.padAct := rfl
@[simp] theorem ticked_padLast (s : State) (p : Phase) (r : TickResult) : (ticked s p r).padLast = s.padLast := rfl
@[simp] theorem ticked_evq (s : State) (p : Phase) (r : TickResult) : (ticked s p r).evq = s.evq := rfl
@[simp] theorem ticked_fault (s : State) (p : Phase) (r : TickResult) : (ticked s p r).fault = s.fault := rfl
@[simp] theorem ticked_resp (s : State) (p : Phase) (r : TickResult) : (ticked s p r).resp = s.resp := rfl
@[simp] theorem ticked_disp (s : State) (p : Phase) (r : TickResult) : (ticked s p r).disp = s.disp := rfl
@[simp] theorem ticked_ledreq (s : State) (p : Phase) (r : TickResult) : (ticked s p r).ledreq = s.ledreq := rfl
@[simp] theorem ticked_err (s : State) (p : Phase) (r : TickResult) : (ticked s p r).err = s.err := rfl
@[simp] theorem ticked_host (s : State) (p : Phase) (r : TickResult) : (ticked s p r).host = { phase := p, reading := none, lastTick := some r } := rfl
@[simp] theorem ticked_env (s : State) (p : Phase) (r : TickResult) : (ticked s p r).env = s.env := rfl

end Sys2Proof.Machine
end

