-- ==== Sys2Proof/Laws/Ops.lean ====
section
/-! SUPPORT. What each shared operation can do, said once. -/

namespace Sys2Proof.Machine

/-! ## The fault precondition -/

/-- An operation answers a next state exactly when no fault is recorded, and then it is its effect. -/
theorem performing_eq_next {s t : State} {f : State → State} :
    performing s f = .next t ↔ Running s ∧ f s = t := by
  unfold performing
  split
  · next h => exact ⟨fun e => ⟨h, by simpa using e⟩, fun e => by rw [e.2]⟩
  · next h => exact ⟨fun e => by simp at e, fun e => absurd e.1 h⟩

theorem performing_of_running {s : State} (h : Running s) (f : State → State) :
    performing s f = .next (f s) := if_pos h

theorem performing_of_faulted {s : State} (h : ¬Running s) (f : State → State) :
    performing s f = .fault (.stuck s.fault) := if_neg h

/-- The effect of each instruction on a running block. -/
def effect : Instr → State → State
  | .setpxOff x y => setPixel false x.toNat y.toNat
  | .setpxOn x y => setPixel true x.toNat y.toNat
  | .getpx x y => getPixel x.toNat y.toNat
  | .fillOff => fillFrame false
  | .fillOn => fillFrame true
  | .invert => invertFrame
  | .invrow row => invertRow row.toNat
  | .clrdirty => fun s => { s with dirty := false }
  | .copy data => copyFrame data
  | .prcharOff c row col => printChar false c row.toNat col.toNat
  | .prcharOn c row col => printChar true c row.toNat col.toNat
  | .printOff row col text => printText false row.toNat col.toNat text
  | .printOn row col text => printText true row.toNat col.toNat text
  | .flush => flushFrame
  | .rdstat => fun s => emitResp (statusBytes s) s
  | .popev => popEvent
  | .rptBtn payload => buttonReport payload
  | .rptPad payload => padReport payload
  | .rptIgnored _ => fun s => s

/-- Every instruction is its effect under the fault precondition. -/
theorem exec_eq_performing (i : Instr) (s : State) : exec i s = performing s (effect i) := by
  cases i <;> rfl

theorem exec_of_running {s : State} (h : Running s) (i : Instr) : exec i s = .next (effect i s) := by
  rw [exec_eq_performing, performing_of_running h]

/-- An instruction answers a next state exactly on a running block, and then it is its effect. -/
theorem exec_eq_next {i : Instr} {s t : State} : exec i s = .next t ↔ Running s ∧ effect i s = t := by
  rw [exec_eq_performing, performing_eq_next]

/-! ## Fault entry and info fields -/

theorem raise_eq_faulted (f : BlockFault) (s : State) : raise f s = faulted s f.code f.info := rfl

@[simp] theorem length_littleEndian (n v : Nat) : (littleEndian n v).length = n := by
  induction n generalizing v with
  | zero => rfl
  | succ n ih => simp [littleEndian, ih]

theorem infoField_of_lt {n v : Nat} (h : v < 2 ^ (8 * n)) : infoField n v = littleEndian n v := by
  simp [infoField, h]

theorem shows_infoField (n v : Nat) : Shows n v (infoField n v) := by
  refine ⟨length_littleEndian _ _, fun h => infoField_of_lt ?_⟩
  rwa [Nat.pow_mul]

/-- A one-byte info field. -/
theorem infoField_one (n : Nat) (h : n < 256) : infoField 1 n = [BitVec.ofNat 8 n] := by
  rw [infoField_of_lt (by simpa using h)]; rfl

theorem BlockFault.code_ne_zero (f : BlockFault) : f.code ≠ 0x00#8 := by cases f <;> simp [code]

theorem BlockFault.code_mem (f : BlockFault) : f.code ∈ faultCodes := by cases f <;> simp [code, faultCodes]

/-! ## The event queue's commit -/

theorem commitEvents_cases (evs : List Event) (commit : State → State) (s : State) :
    (s.cfg.evqCap < s.evq.length + evs.length ∧ commitEvents evs commit s = raise (.evqOverflow evs.length) s) ∨
    (s.evq.length + evs.length ≤ s.cfg.evqCap ∧
      commitEvents evs commit s = commit { s with evq := s.evq ++ evs }) := by
  unfold commitEvents
  split
  · exact .inl ⟨‹_›, rfl⟩
  · exact .inr ⟨by omega, rfl⟩

/-! ## The environment's answers -/

/-- Drawing an answer gives the first one and shifts the rest, and touches only the answers of the environment. -/
theorem drawAck_spec (s : State) :
    (drawAck s).1 = ackAt s 0 ∧ (∀ k, ackAt (drawAck s).2 k = ackAt s (k + 1)) ∧
    ∃ acks draws, (drawAck s).2 = { s with env := { s.env with acks := acks, ackDraws := draws } } := by
  unfold drawAck ackAt
  cases h : s.env.acks with
  | nil =>
    exact ⟨by simp, fun k => by simp [h, Nat.add_assoc, Nat.add_comm 1 k], s.env.acks, s.env.ackDraws + 1, by simp⟩
  | cons a rest =>
    refine ⟨by simp, fun k => ?_, rest, s.env.ackDraws, rfl⟩
    simp only [List.getElem?_cons_succ, List.length_cons, Nat.add_sub_add_right]

/-- Taking a read gives the next one and touches only the reads of the environment. -/
theorem drawRead_spec (s : State) :
    (drawRead s).1 = nextRead s ∧
    ∃ reads draws, (drawRead s).2 = { s with env := { s.env with reads := reads, readDraws := draws } } := by
  unfold drawRead nextRead
  cases h : s.env.reads with
  | nil => exact ⟨by simp, s.env.reads, s.env.readDraws + 1, by simp⟩
  | cons r rest => exact ⟨by simp, rest, s.env.readDraws, rfl⟩

/-! ## Canvas and glyph operations -/

theorem inRange_iff (cfg : Config) (x y : Nat) : inRange cfg x y = true ↔ PassesBound cfg x y := by
  unfold inRange PassesBound
  cases cfg.bound <;> simp

theorem printable_iff (c : Byte) : printable c = true ↔ Drawn c := by simp [printable, Drawn]

/-- SETPX: nothing, an overrun, or one byte written. -/
theorem setPixel_cases (on : Bool) (x y : Nat) (s : State) :
    (¬PassesBound s.cfg x y ∧ setPixel on x y s = s) ∨
    (PassesBound s.cfg x y ∧ frameLength s.cfg ≤ pixelIndex s.cfg x y ∧
      setPixel on x y s = raise (.overrun (pixelIndex s.cfg x y)) s) ∨
    (PassesBound s.cfg x y ∧ pixelIndex s.cfg x y < frameLength s.cfg ∧
      setPixel on x y s = writeFrame (s.fb.write (pixelIndex s.cfg x y)
        (setBit on (pixelMask y) (s.fb.read (pixelIndex s.cfg x y)))) s) := by
  simp only [setPixel, ← inRange_iff]
  split
  · next h =>
    split
    · exact .inr (.inl ⟨h, ‹_›, rfl⟩)
    · exact .inr (.inr ⟨h, by omega, rfl⟩)
  · next h => exact .inl ⟨h, rfl⟩

/-- GETPX: None, an overrun, or the pixel. -/
theorem getPixel_cases (x y : Nat) (s : State) :
    (¬PassesBound s.cfg x y ∧ getPixel x y s = emitResp [0x80] s) ∨
    (PassesBound s.cfg x y ∧ frameLength s.cfg ≤ pixelIndex s.cfg x y ∧
      getPixel x y s = raise (.overrun (pixelIndex s.cfg x y)) s) ∨
    (PassesBound s.cfg x y ∧ pixelIndex s.cfg x y < frameLength s.cfg ∧
      getPixel x y s = emitResp [bitByte (pixelValue s x y)] s) := by
  simp only [getPixel, ← inRange_iff]
  split
  · next h =>
    split
    · exact .inr (.inl ⟨h, ‹_›, rfl⟩)
    · exact .inr (.inr ⟨h, by omega, rfl⟩)
  · next h => exact .inl ⟨h, rfl⟩

/-- INVROW: nothing past the end, or the bytes of the row group. -/
theorem invertRow_cases (row : Nat) (s : State) :
    (frameLength s.cfg ≤ row * s.cfg.width ∧ invertRow row s = s) ∨
    (row * s.cfg.width < frameLength s.cfg ∧ invertRow row s = writeFrame (s.fb.writeBytes (row * s.cfg.width)
      ((s.fb.slice (row * s.cfg.width) s.cfg.width).map (~~~ ·))) s) := by
  simp only [invertRow]
  split
  · exact .inl ⟨‹_›, rfl⟩
  · exact .inr ⟨by omega, rfl⟩

/-- COPY: the whole buffer, or a size fault. -/
theorem copyFrame_cases (d : List Byte) (s : State) :
    (d.length = frameLength s.cfg ∧ copyFrame d s = writeFrame (Memory.ofBytes 0 d) s) ∨
    (d.length ≠ frameLength s.cfg ∧ copyFrame d s = raise (.size d.length) s) := by
  unfold copyFrame
  split
  · exact .inl ⟨‹_›, rfl⟩
  · exact .inr ⟨‹_›, rfl⟩

/-- PRCHAR: skipped, an overrun, or the five glyph bytes. -/
theorem printChar_cases (on : Bool) (c : Byte) (row col : Nat) (s : State) :
    (¬Drawn c ∧ printChar on c row col s = s) ∨
    (Drawn c ∧ frameLength s.cfg ≤ cellBase s.cfg row col 0 + 4 ∧ printChar on c row col s =
      raise (.overrun (max (cellBase s.cfg row col 0) (frameLength s.cfg))) s) ∨
    (Drawn c ∧ cellBase s.cfg row col 0 + 4 < frameLength s.cfg ∧ printChar on c row col s =
      writeFrame (s.fb.writeBytes (cellBase s.cfg row col 0) (glyphBytes s.cfg on c)) s) := by
  simp only [printChar, cellOverrun, glyphWidth, ← printable_iff]
  by_cases h : printable c = true
  · by_cases h2 : frameLength s.cfg ≤ cellBase s.cfg row col 0 + 4
    · exact .inr (.inl ⟨h, h2, by simp [h, h2]⟩)
    · exact .inr (.inr ⟨h, by omega, by simp [h, h2]⟩)
  · exact .inl ⟨h, by simp [h]⟩

/-- PRINT: an overrun of the check pass, or the write pass. -/
theorem printText_cases (on : Bool) (row col : Nat) (text : List Byte) (s : State) :
    (∃ i, textOverrun s.cfg row col 0 text = some i ∧ printText on row col text s = raise (.overrun i) s) ∨
    (textOverrun s.cfg row col 0 text = none ∧ text.any printable = false ∧ printText on row col text s = s) ∨
    (textOverrun s.cfg row col 0 text = none ∧ text.any printable = true ∧
      printText on row col text s = writeFrame (writeText s.cfg on row col 0 text s.fb) s) := by
  unfold printText
  split
  · next i h => exact .inl ⟨i, h, rfl⟩
  · next h =>
    cases ha : text.any printable
    · exact .inr (.inl ⟨h, rfl, by simp⟩)
    · exact .inr (.inr ⟨h, rfl, by simp⟩)

/-! ## Frame read-out -/

/-- The messages from a chunk on: some of them sent, then either all accepted and `dirty` cleared, or one refused;
only DISP, RESP, `dirty` and the environment's answers can change. -/
theorem sendChunks_frame (ks : List Nat) (s : State) :
    ∃ msgs r d acks draws, sendChunks ks s = { s with
      dirty := d, disp := s.disp ++ msgs, resp := s.resp ++ [[r]],
      env := { s.env with acks := acks, ackDraws := draws } } ∧
      ((r = 0x04 ∧ d = false) ∨ (d = s.dirty ∧ ∃ k ∈ ks, r = 0x80 ||| BitVec.ofNat 8 k)) := by
  induction ks generalizing s with
  | nil => exact ⟨[], 0x04, false, s.env.acks, s.env.ackDraws, by simp [sendChunks, emitResp], .inl ⟨rfl, rfl⟩⟩
  | cons k ks ih =>
    obtain ⟨-, -, acks, draws, h⟩ := drawAck_spec (emitDisp (displayMessage s.fb k) s)
    rw [sendChunks]
    split
    · next t ht =>
      rw [ht] at h
      obtain ⟨msgs, r, d, acks', draws', h2, h3⟩ := ih t
      refine ⟨displayMessage s.fb k :: msgs, r, d, acks', draws', ?_, ?_⟩
      · rw [h2, show t = _ from h]; simp [emitDisp]
      · rw [show t = _ from h] at h3
        rcases h3 with h3 | ⟨h3, j, hj, h4⟩
        · exact .inl h3
        · exact .inr ⟨h3, j, by simp [hj], h4⟩
    · next t ht =>
      rw [ht] at h
      refine ⟨[displayMessage s.fb k], 0x80 ||| BitVec.ofNat 8 k, s.dirty, acks, draws, ?_,
        .inr ⟨rfl, k, by simp, rfl⟩⟩
      rw [show t = _ from h]; simp [emitDisp, emitResp]

/-- FLUSH: a geometry fault, nothing to send, or the read-out of the four chunks. -/
theorem flushFrame_cases (s : State) :
    (¬(s.cfg.width = 128 ∧ s.cfg.height = 64) ∧ flushFrame s = raise (.geometry s.cfg.width s.cfg.height) s) ∨
    ((s.cfg.width = 128 ∧ s.cfg.height = 64) ∧ s.dirty = false ∧ flushFrame s = emitResp [0x00] s) ∨
    ((s.cfg.width = 128 ∧ s.cfg.height = 64) ∧ s.dirty = true ∧ flushFrame s = sendChunks [0, 1, 2, 3] s) := by
  unfold flushFrame
  split
  · next h =>
    cases hd : s.dirty
    · exact .inr (.inl ⟨h, rfl, by simp⟩)
    · exact .inr (.inr ⟨h, rfl, by simp⟩)
  · exact .inl ⟨‹_›, rfl⟩

/-! ## Reports and the event queue -/

/-- A button report: InvalidReport, an overflow, or the commit of its scan. -/
theorem buttonReport_cases (p : List Byte) (s : State) :
    (p.length < 5 ∧ buttonReport p s = reportError 0x01 p.length s) ∨
    (5 ≤ p.length ∧ ∃ evs,
      evs = (scanButtons s p).evs ++ encoderEvents s.encLast (encoderRaw p) (scanButtons s p).shift ∧
      ((s.cfg.evqCap < s.evq.length + evs.length ∧ buttonReport p s = raise (.evqOverflow evs.length) s) ∨
       (s.evq.length + evs.length ≤ s.cfg.evqCap ∧ buttonReport p s = { s with
          btn := (scanButtons s p).btn, shift := (scanButtons s p).shift, encLast := encoderRaw p,
          evq := s.evq ++ evs, ledreq := s.ledreq ++ (scanButtons s p).leds }))) := by
  by_cases h : p.length < 5
  · exact .inl ⟨h, if_pos h⟩
  · refine .inr ⟨by omega, _, rfl, ?_⟩
    rw [show buttonReport p s = _ from if_neg h]
    exact commitEvents_cases _ _ s

/-- A pad report: InvalidReport, an overflow, or the commit of its scan. -/
theorem padReport_cases (p : List Byte) (s : State) :
    (p.length < s.cfg.padMin ∧ padReport p s = reportError 0x20 p.length s) ∨
    (s.cfg.padMin ≤ p.length ∧
      ((s.cfg.evqCap < s.evq.length + (scanSamples s p).evs.length ∧
          padReport p s = raise (.evqOverflow (scanSamples s p).evs.length) s) ∨
       (s.evq.length + (scanSamples s p).evs.length ≤ s.cfg.evqCap ∧ padReport p s = { s with
          padAct := (scanSamples s p).act, padLast := (scanSamples s p).last,
          evq := s.evq ++ (scanSamples s p).evs }))) := by
  by_cases h : p.length < s.cfg.padMin
  · exact .inl ⟨h, if_pos h⟩
  · refine .inr ⟨by omega, ?_⟩
    rw [show padReport p s = _ from if_neg h]
    exact commitEvents_cases _ _ s

/-- POPEV: an empty answer, or the head of the queue. -/
theorem popEvent_cases (s : State) :
    (s.evq = [] ∧ popEvent s = emitResp [0x00] s) ∨
    (∃ e rest, s.evq = e :: rest ∧ popEvent s = emitResp e.encode { s with evq := rest }) := by
  unfold popEvent
  split
  · exact .inl ⟨‹_›, rfl⟩
  · next e rest h => exact .inr ⟨e, rest, h, rfl⟩

/-! ## The step -/

theorem step_of_released {s : State} (h : s.env.resetLine = false) :
    step s = if s.fault = 0x00#8 then stepRunning s else stepFaulted s := by
  simp [step, stepMachine, h]

/-- A ready item is performed in the state with the item taken. -/
theorem step_of_ready {s : State} {item : Item} {rest : List HostAction} (h : Ready s item rest) :
    step s = performItem item (withInput s rest) := by
  obtain ⟨h1, h2, h3, h4⟩ := h
  rw [step_of_released h2, if_pos h1]
  simp [stepRunning, h3, h4, stepAction, withInput]

@[simp] theorem countDown_reset (n : Nat) (rest : List HostAction) :
    countDown (.assertReset (n + 1) :: rest) = .assertReset n :: rest := rfl

/-- With no reset waiting there is nothing to count. -/
theorem countDown_of_no_reset {input : List HostAction} (h : ∀ n rest, input ≠ .assertReset n :: rest) :
    countDown input = input := by
  unfold countDown
  split
  · exact absurd rfl (h _ _)
  · rfl

@[simp] theorem counted_cfg (s : State) : (counted s).cfg = s.cfg := rfl
@[simp] theorem counted_evq (s : State) : (counted s).evq = s.evq := rfl
@[simp] theorem counted_fault (s : State) : (counted s).fault = s.fault := rfl
@[simp] theorem counted_resp (s : State) : (counted s).resp = s.resp := rfl
@[simp] theorem counted_err (s : State) : (counted s).err = s.err := rfl
@[simp] theorem counted_host (s : State) : (counted s).host = s.host := rfl
@[simp] theorem counted_input (s : State) : (counted s).env.input = countDown s.env.input := rfl
@[simp] theorem nextRead_counted (s : State) : nextRead (counted s) = nextRead s := rfl

/-- Everything the next operation of a tick or drain in progress can be: the reset that comes before it, or itself. -/
theorem underway_cases (operation : State → Host.Outcome State Fault Refusal) (s : State) :
    (∃ rest, s.env.input = .assertReset 0 :: rest ∧ underway operation s = .next (performReset rest s)) ∨
    (resetIsNow s.env.input = false ∧ underway operation s = operation (counted s)) := by
  unfold underway
  split
  · next rest h => exact .inl ⟨rest, h, rfl⟩
  · next h =>
    refine .inr ⟨?_, rfl⟩
    unfold resetIsNow
    split
    · exact absurd (by assumption) (h _)
    · rfl

/-- With no reset asserted now the operation in progress goes on. -/
theorem underway_of_no_reset {operation : State → Host.Outcome State Fault Refusal} {s : State}
    (h : resetIsNow s.env.input = false) : underway operation s = operation (counted s) := by
  rcases underway_cases operation s with ⟨rest, hi, -⟩ | ⟨-, e⟩
  · rw [hi] at h; cases h
  · exact e

/-- A read of a stage in progress. -/
theorem step_of_reading {s : State} {i : Nat} (h : Reading s i) : step s = stepRead i (counted s) := by
  obtain ⟨h1, h2, h3, h4⟩ := h
  rw [step_of_released h2, if_pos h1, stepRunning, h3]
  exact underway_of_no_reset h4

end Sys2Proof.Machine
end

