-- ==== Sys2Proof/Laws/Frame.lean ====
section
/-! SUPPORT. The framebuffer's geometry, the glyph passes and the display-frame read-out, said once. -/

namespace Sys2Proof.Machine

/-! ## Pixels -/

/-- Setting a pixel in a byte changes that bit and no other. -/
theorem setBit_getLsbD (on : Bool) (y : Nat) (b : Byte) (k : Nat) :
    (setBit on (pixelMask y) b).getLsbD k = if k = y % 8 then on else b.getLsbD k := by
  unfold setBit pixelMask
  have hy : y % 8 < 8 := Nat.mod_lt _ (by omega)
  by_cases hk : k < 8
  · cases on <;> simp [hk]
    · by_cases h : k = y % 8
      · subst h; simp
      · simp [h]
        by_cases h2 : k < y % 8
        · simp [h2]
        · simp [h2]; intro; omega
    · by_cases h : k = y % 8
      · subst h; simp
      · simp [h]
        intro h1; omega
  · have : k ≠ y % 8 := by omega
    rw [if_neg this, BitVec.getLsbD_of_ge _ _ (by omega), BitVec.getLsbD_of_ge _ _ (by omega)]

/-- A height that passed the check of reset is a positive multiple of 8 (R232). -/
theorem height_of_config {cfg : Config} (h : configFailure cfg = none) : cfg.height % 8 = 0 ∧ 8 ≤ cfg.height := by
  simp [configFailure, configChecks] at h
  omega

/-- The buffer is a whole number of row groups (R105). -/
theorem frameLength_eq {cfg : Config} (h : cfg.height % 8 = 0) : frameLength cfg = cfg.width * (cfg.height / 8) := by
  unfold frameLength
  obtain ⟨k, hk⟩ : 8 ∣ cfg.height := Nat.dvd_of_mod_eq_zero h
  rw [hk, Nat.mul_div_cancel_left _ (by omega), Nat.mul_left_comm, Nat.mul_div_cancel_left _ (by omega)]

/-- A pixel of the picture lies in the buffer. -/
theorem pixelIndex_lt {cfg : Config} {x y : Nat} (h : cfg.height % 8 = 0) (hx : x < cfg.width)
    (hy : y < cfg.height) : pixelIndex cfg x y < frameLength cfg := by
  rw [frameLength_eq h, pixelIndex]
  have : y / 8 + 1 ≤ cfg.height / 8 := by omega
  calc _ < cfg.width * (y/8) + cfg.width := by omega
    _ = cfg.width * (y/8+1) := by ring
    _ ≤ _ := Nat.mul_le_mul_left _ this

/-- Two pixels of the picture share a byte only in one column of one row group. -/
theorem pixelIndex_inj {cfg : Config} {x y x' y' : Nat} (hx : x < cfg.width) (hx' : x' < cfg.width)
    (h : pixelIndex cfg x y = pixelIndex cfg x' y') : x = x' ∧ y / 8 = y' / 8 := by
  unfold pixelIndex at h
  have hw : 0 < cfg.width := by omega
  have h1 := congrArg (· % cfg.width) h
  have h2 := congrArg (· / cfg.width) h
  simp [Nat.mul_add_div hw, Nat.mod_eq_of_lt, Nat.div_eq_of_lt, hx, hx'] at h1 h2
  exact ⟨h1, h2⟩

/-! ## Reset contents -/

/-- `FB` after reset is in canonical form and inside its bytes, whatever the configuration. -/
theorem resetFrame_spec (cfg : Config) : (resetFrame cfg).wf ∧ (resetFrame cfg).below (frameLength cfg) := by
  unfold resetFrame
  split
  · exact ⟨by simp [Memory.wf], by simp [Memory.below]⟩
  · split
    · next h => exact ⟨Memory.wf_ofBytes _ _, Memory.below_ofBytes (Nat.le_of_eq h)⟩
    · split
      · exact ⟨by simp [Memory.wf], by simp [Memory.below]⟩
      · exact ⟨Memory.wf_ofBytes _ _, Memory.below_ofBytes (by simp)⟩

/-- The framebuffer right after reset is in canonical form. -/
theorem reset_fb_wf : State.reset.fb.wf := (resetFrame_spec hardwareConfig).1

/-! ## Glyphs -/

theorem length_glyphBytes (cfg : Config) (on : Bool) (c : Byte) : (glyphBytes cfg on c).length = 5 := by
  simp [glyphBytes, glyphWidth]

theorem getD_glyphBytes (cfg : Config) (on : Bool) (c : Byte) (k : Nat) (d : Byte) (h : k < 5) :
    (glyphBytes cfg on c).getD k d = drawnColumn cfg on c k := by
  simp [glyphBytes, glyphWidth, drawnColumn, List.getD_eq_getElem?_getD, h]

/-- The check pass finds nothing exactly when every printable character fits. -/
theorem textOverrun_none {cfg : Config} {row col : Nat} (text : List Byte) (j0 : Nat) :
    textOverrun cfg row col j0 text = none ↔
      ∀ j c, text[j]? = some c → Drawn c → cellBase cfg row col (j0 + j) + 4 < frameLength cfg := by
  induction text generalizing j0 with
  | nil => simp [textOverrun]
  | cons c t ih =>
    have hsplit : (∀ j c', (c :: t)[j]? = some c' → Drawn c' →
          cellBase cfg row col (j0 + j) + 4 < frameLength cfg) ↔
        (Drawn c → cellBase cfg row col j0 + 4 < frameLength cfg) ∧
          ∀ j c', t[j]? = some c' → Drawn c' → cellBase cfg row col (j0 + 1 + j) + 4 < frameLength cfg := by
      constructor
      · intro h; exact ⟨h 0 c rfl, fun j c' hj => by have := h (j+1) c' hj; rwa [Nat.add_assoc, Nat.add_comm 1 j]⟩
      · rintro ⟨h1, h2⟩ j c' hj
        cases j with
        | zero => simp at hj; subst hj; exact h1
        | succ j => have := h2 j c' (by simpa using hj); rwa [Nat.add_assoc, Nat.add_comm 1 j] at this
    rw [hsplit, ← ih]
    by_cases h : printable c = true
    · have hd := (printable_iff c).1 h
      by_cases h2 : frameLength cfg ≤ cellBase cfg row col j0 + 4
      · have : textOverrun cfg row col j0 (c :: t) = some (max (cellBase cfg row col j0) (frameLength cfg)) := by
          simp [textOverrun, h, cellOverrun, glyphWidth, h2]
        rw [this]; simp [hd]; omega
      · have : textOverrun cfg row col j0 (c :: t) = textOverrun cfg row col (j0+1) t := by
          simp [textOverrun, h, cellOverrun, glyphWidth, h2]
        rw [this]; simp [hd]; omega
    · have hd := mt (printable_iff c).2 h
      have : textOverrun cfg row col j0 (c :: t) = textOverrun cfg row col (j0+1) t := by
          simp [textOverrun, h]
      rw [this]; exact ⟨fun e => ⟨fun d => absurd d hd, e⟩, fun e => e.2⟩

/-- The check pass reports the first printable character that does not fit. -/
theorem textOverrun_first {cfg : Config} {row col : Nat} (text : List Byte) (j0 j : Nat) (c : Byte)
    (h1 : text[j]? = some c) (h2 : Drawn c) (h3 : frameLength cfg ≤ cellBase cfg row col (j0 + j) + 4)
    (h4 : ∀ j' c', j' < j → text[j']? = some c' → Drawn c' → cellBase cfg row col (j0 + j') + 4 < frameLength cfg) :
    textOverrun cfg row col j0 text = some (max (cellBase cfg row col (j0 + j)) (frameLength cfg)) := by
  induction text generalizing j0 j with
  | nil => simp at h1
  | cons d t ih =>
    cases j with
    | zero =>
      simp at h1; subst h1
      have : printable d = true := (printable_iff d).2 h2
      simp at h3
      simp [textOverrun, this, cellOverrun, glyphWidth, h3]
    | succ j =>
      have := ih (j0+1) j (by simpa using h1) (by rw [Nat.add_assoc, Nat.add_comm 1 j]; exact h3)
        (fun j' c' hj hc hd => by
        have := h4 (j'+1) c' (by omega) (by simpa using hc) hd
        rw [Nat.add_assoc, Nat.add_comm 1 j']; exact this)
      rw [textOverrun, this, Nat.add_assoc, Nat.add_comm 1 j]
      have h0 : Drawn d → cellBase cfg row col j0 + 4 < frameLength cfg := h4 0 d (by omega) rfl
      by_cases hd : printable d = true
      · have := h0 ((printable_iff d).1 hd)
        have h5 : ¬ frameLength cfg ≤ cellBase cfg row col j0 + 4 := by omega
        simp [hd, cellOverrun, glyphWidth, h5]
      · simp [hd]

/-- The write pass keeps the canonical form. -/
theorem wf_writeText {cfg : Config} {on : Bool} {row col : Nat} (text : List Byte) (j0 : Nat) (m : Memory)
    (hm : m.wf) : (writeText cfg on row col j0 text m).wf := by
  induction text generalizing j0 m with
  | nil => exact hm
  | cons c t ih =>
    unfold writeText
    apply ih
    split
    · exact Memory.wf_writeBytes hm _ _
    · exact hm

/-- The write pass leaves every byte outside the cells. -/
theorem writeText_out {cfg : Config} {on : Bool} {row col : Nat} (text : List Byte) (j0 : Nat) (m : Memory)
    (hm : m.wf) (a : Nat) (h : ∀ j c, text[j]? = some c → Drawn c →
      a < cellBase cfg row col (j0+j) ∨ cellBase cfg row col (j0+j) + 5 ≤ a) :
    (writeText cfg on row col j0 text m).read a = m.read a := by
  induction text generalizing j0 m with
  | nil => rfl
  | cons c t ih =>
    unfold writeText
    rw [ih]
    · split
      · next hp =>
        have := h 0 c rfl ((printable_iff c).1 hp)
        rw [Memory.read_writeBytes hm, length_glyphBytes, if_neg]
        simp at this; omega
      · rfl
    · split
      · exact Memory.wf_writeBytes hm _ _
      · exact hm
    · intro j c' hj hd
      have := h (j+1) c' (by simpa using hj) hd
      rwa [Nat.add_assoc, Nat.add_comm 1 j]

/-- After the write pass a byte of a cell that no later cell covers shows the glyph. -/
theorem writeText_in {cfg : Config} {on : Bool} {row col : Nat} (text : List Byte) (j0 : Nat) (m : Memory)
    (hm : m.wf) (j : Nat) (c : Byte) (k : Nat) (h1 : text[j]? = some c) (h2 : Drawn c) (hk : k < 5)
    (h : ∀ j' c', j < j' → text[j']? = some c' → Drawn c' →
      cellBase cfg row col (j0+j) + k < cellBase cfg row col (j0+j') ∨
      cellBase cfg row col (j0+j') + 5 ≤ cellBase cfg row col (j0+j) + k) :
    (writeText cfg on row col j0 text m).read (cellBase cfg row col (j0+j) + k) = drawnColumn cfg on c k := by
  induction text generalizing j0 m j with
  | nil => simp at h1
  | cons d t ih =>
    unfold writeText
    cases j with
    | zero =>
      simp at h1; subst h1
      have hp : printable d = true := (printable_iff d).2 h2
      rw [writeText_out]
      · simp only [hp, if_true, Nat.add_zero]
        rw [Memory.read_writeBytes hm, length_glyphBytes, if_pos (by omega), Nat.add_sub_cancel_left,
          getD_glyphBytes _ _ _ _ _ hk]
      · simp only [hp, if_true]; exact Memory.wf_writeBytes hm _ _
      · intro j' c' hj hd
        have := h (j'+1) c' (by omega) (by simpa using hj) hd
        rwa [Nat.add_assoc, Nat.add_comm 1 j']
    | succ j =>
      have e : j0 + (j+1) = j0 + 1 + j := by omega
      rw [e]
      refine ih _ _ ?_ j (by simpa using h1) ?_
      · split
        · exact Memory.wf_writeBytes hm _ _
        · exact hm
      · intro j' c' hlt hj hd
        have := h (j'+1) c' (by omega) (by simpa using hj) hd
        rw [e] at this
        rwa [Nat.add_assoc j0 1 j', Nat.add_comm 1 j']

/-! ## Read-out -/

theorem ackAt_emitDisp (s : State) (r : Record) (k : Nat) : ackAt (emitDisp r s) k = ackAt s k := rfl

/-- All answers accepted: every message is sent and `dirty` cleared. -/
theorem sendChunks_accepted (ks : List Nat) (s : State) (h : ∀ k < ks.length, ackAt s k = .accepted) :
    ∃ acks draws, sendChunks ks s = { s with
      dirty := false, disp := s.disp ++ ks.map (displayMessage s.fb), resp := s.resp ++ [[0x04]],
      env := { s.env with acks := acks, ackDraws := draws } } := by
  induction ks generalizing s with
  | nil => exact ⟨s.env.acks, s.env.ackDraws, by simp [sendChunks, emitResp]⟩
  | cons k ks ih =>
    obtain ⟨h1, h2, acks, draws, h3⟩ := drawAck_spec (emitDisp (displayMessage s.fb k) s)
    rw [sendChunks]
    split
    · next t ht =>
      rw [ht] at h2 h3
      have ht' : t = _ := h3
      obtain ⟨a, d, h4⟩ := ih t (fun j hj => by
        have := h2 j; simp only [ackAt_emitDisp] at this; rw [this]; exact h (j+1) (by simpa using hj))
      refine ⟨a, d, ?_⟩
      rw [h4, ht']; simp [emitDisp]
    · next t ht =>
      rw [ht] at h1
      have := h 0 (by simp)
      rw [ackAt_emitDisp, this] at h1; simp at h1

/-- A refusal after accepted answers: the messages up to it are sent and `dirty` kept. -/
theorem sendChunks_refused (pre : List Nat) (k : Nat) (post : List Nat) (s : State)
    (h : ∀ j < pre.length, ackAt s j = .accepted) (hr : ackAt s pre.length = .refused) :
    ∃ acks draws, sendChunks (pre ++ k :: post) s = { s with
      disp := s.disp ++ (pre ++ [k]).map (displayMessage s.fb),
      resp := s.resp ++ [[0x80 ||| BitVec.ofNat 8 k]], env := { s.env with acks := acks, ackDraws := draws } } := by
  induction pre generalizing s with
  | nil =>
    obtain ⟨h1, h2, acks, draws, h3⟩ := drawAck_spec (emitDisp (displayMessage s.fb k) s)
    rw [List.nil_append, sendChunks]
    split
    · next t ht => rw [ht] at h1; simp at hr; rw [ackAt_emitDisp, hr] at h1; simp at h1
    · next t ht => 
      rw [ht] at h3; have ht' : t = _ := h3
      exact ⟨acks, draws, by rw [ht']; simp [emitDisp, emitResp]⟩
  | cons p pre ih =>
    obtain ⟨h1, h2, acks, draws, h3⟩ := drawAck_spec (emitDisp (displayMessage s.fb p) s)
    rw [List.cons_append, sendChunks]
    split
    · next t ht =>
      rw [ht] at h2 h3
      have ht' : t = _ := h3
      simp only [ackAt_emitDisp] at h2
      obtain ⟨a, d, h4⟩ := ih t (fun j hj => by rw [h2]; exact h (j+1) (by simpa using hj)) (by rw [h2]; simpa using hr)
      refine ⟨a, d, ?_⟩
      rw [h4, ht']; simp [emitDisp]
    · next t ht =>
      rw [ht] at h1
      have := h 0 (by simp)
      rw [ackAt_emitDisp, this] at h1; simp at h1

end Sys2Proof.Machine
end

