-- ==== Sys2Proof/Laws/Reports.lean ====
section
/-! SUPPORT. The loops of the two report decoders, said without a loop. -/

namespace Sys2Proof.Machine

/-! ## Buttons -/

/-- The configuration's button constraints (R232). -/
theorem buttons_of_config {cfg : Config} (h : configFailure cfg = none) :
    cfg.buttonCount ≤ 32 ∧ cfg.shiftIndex < cfg.buttonCount ∧ cfg.noneIndex ≠ some cfg.shiftIndex := by
  simp [configFailure, configChecks] at h
  obtain ⟨_,_,_,_,h,_⟩ := h
  exact h.1

/-- What the button loop has done after its first `n` turns. -/
structure ButtonsScanned (s : State) (p : List Byte) (n : Nat) (w : ButtonScan) : Prop where
  btn : w.btn = (List.range s.cfg.buttonCount).map fun i =>
    if i < n ∧ s.cfg.noneIndex ≠ some i then buttonLevel p i else s.btn.getD i false
  shift : w.shift = if s.cfg.shiftIndex < n then buttonLevel p s.cfg.shiftIndex else s.shift
  evs : w.evs = (List.range n).filterMap (buttonEventAt s p)
  leds : w.leds = if s.cfg.shiftIndex < n ∧ buttonLevel p s.cfg.shiftIndex ≠ s.shift then
    [ledRequest (buttonLevel p s.cfg.shiftIndex)] else []

/-- The button loop, turn by turn. -/
theorem scanButtons_prefix (s : State) (p : List Byte) (hb : ButtonInv s)
    (hn : s.cfg.noneIndex ≠ some s.cfg.shiftIndex) (n : Nat) (hle : n ≤ s.cfg.buttonCount) :
    ButtonsScanned s p n ((List.range n).foldl (scanButton s.cfg p)
      { btn := s.btn, shift := s.shift, evs := [], leds := [] }) := by
  obtain ⟨hb1, hb2, hb3⟩ := hb
  induction n with
  | zero =>
    refine ⟨?_, by simp, by simp, by simp⟩
    apply List.ext_getElem
    · simp [hb1]
    · intro i h1 h2; simp at h1; simp [List.getD_eq_getElem?_getD, h1]
  | succ n ih =>
    have ih := ih (by omega)
    rw [List.range_succ, List.foldl_append, List.foldl_cons, List.foldl_nil]
    generalize hw : (List.range n).foldl (scanButton s.cfg p)
      { btn := s.btn, shift := s.shift, evs := [], leds := [] } = w at ih
    clear hw
    obtain ⟨i1, i2, i3, i4⟩ := ih
    have hget : w.btn.getD n false = s.btn.getD n false := by
      rw [i1]; simp [List.getD_eq_getElem?_getD, show n < s.cfg.buttonCount by omega]
    have hset : ∀ v, (v = if s.cfg.noneIndex ≠ some n then buttonLevel p n else s.btn.getD n false) →
        w.btn.set n v = (List.range s.cfg.buttonCount).map fun i =>
          if i < n + 1 ∧ s.cfg.noneIndex ≠ some i then buttonLevel p i else s.btn.getD i false := by
      intro v hv
      rw [i1]
      apply List.ext_getElem
      · simp
      · intro i h1 h2
        simp only [List.getElem_set, List.getElem_map, List.getElem_range]
        by_cases h : n = i
        · subst h; simp only [if_true, hv]; simp
        · have : (i < n + 1) = (i < n) := by simp; omega
          simp [h, this]
    have hsame : w.btn = w.btn.set n (w.btn.getD n false) := by
      apply List.ext_getElem
      · simp
      · intro i h1 h2
        simp only [List.getElem_set]
        split
        · next h => subst h; simp [List.getD_eq_getElem?_getD, h1]
        · rfl
    unfold scanButton
    split
    · next h =>
      have hne : n ≠ s.cfg.shiftIndex := by rintro rfl; exact hn h
      have hlt : (s.cfg.shiftIndex < n + 1) = (s.cfg.shiftIndex < n) := by simp; omega
      refine ⟨?_, by rw [i2]; simp only [hlt], ?_, by rw [i4]; simp only [hlt]⟩
      · rw [hsame]; apply hset; rw [hget]; simp [h]
      · rw [i3, List.range_succ, List.filterMap_append]; simp [buttonEventAt, h]
    · next h =>
      split
      · next h2 =>
        have hlev : n = s.cfg.shiftIndex → buttonLevel p s.cfg.shiftIndex = s.shift := by
          rintro rfl; rw [h2, hget, hb2]
        refine ⟨?_, ?_, ?_, ?_⟩
        · rw [hsame]; apply hset; rw [if_pos h, h2]
        · rw [i2]; by_cases hlt : s.cfg.shiftIndex < n
          · simp [hlt, show s.cfg.shiftIndex < n + 1 by omega]
          · by_cases he : n = s.cfg.shiftIndex
            · rw [hlev he]; simp
            · simp [hlt, show ¬ s.cfg.shiftIndex < n + 1 by omega]
        · rw [i3, List.range_succ, List.filterMap_append]; rw [hget] at h2
          simp only [List.getD_eq_getElem?_getD] at h2; simp [buttonEventAt, h2]
        · rw [i4]; by_cases hlt : s.cfg.shiftIndex < n
          · simp [hlt, show s.cfg.shiftIndex < n + 1 by omega]
          · by_cases he : n = s.cfg.shiftIndex
            · rw [hlev he]; simp
            · simp [hlt, show ¬ s.cfg.shiftIndex < n + 1 by omega]
      · next h2 =>
        split
        · next h3 =>
          subst h3
          rw [hget, ← hb2] at h2
          refine ⟨?_, ?_, ?_, ?_⟩
          · apply hset; simp [h]
          · simp
          · simp only; rw [i3, List.range_succ, List.filterMap_append]; simp [buttonEventAt]
          · simp only; rw [i4]; simp [h2]
        · next h3 =>
          have hlt : (s.cfg.shiftIndex < n + 1) = (s.cfg.shiftIndex < n) := by simp; omega
          refine ⟨?_, ?_, ?_, ?_⟩
          · apply hset; simp [h]
          · simp only; rw [i2]; simp only [hlt]
          · simp only; rw [i3, i2, List.range_succ, List.filterMap_append]; rw [hget] at h2
            simp only [List.getD_eq_getElem?_getD] at h2; simp [buttonEventAt, h, h2, h3]
          · simp only; rw [i4]; simp only [hlt]

/-- The button loop as a whole, for a configuration that passed the check of reset. -/
theorem scanButtons_spec (s : State) (p : List Byte) (hb : ButtonInv s) (hc : configFailure s.cfg = none) :
    (scanButtons s p).btn = buttonsAfter s p ∧ (scanButtons s p).shift = buttonLevel p s.cfg.shiftIndex ∧
    (scanButtons s p).evs = buttonEvents s p ∧
    (scanButtons s p).leds = if buttonLevel p s.cfg.shiftIndex = s.shift then []
      else [ledRequest (buttonLevel p s.cfg.shiftIndex)] := by
  obtain ⟨-, c2, c3⟩ := buttons_of_config hc
  obtain ⟨s1, s2, s3, s4⟩ := scanButtons_prefix s p hb c3 s.cfg.buttonCount (Nat.le_refl _)
  rw [if_pos c2] at s2
  refine ⟨Eq.trans s1 ?_, s2, s3, Eq.trans s4 ?_⟩
  · unfold buttonsAfter
    apply List.map_congr_left; intro i hi
    by_cases h : s.cfg.noneIndex = some i <;> simp [h]; intro h2; simp at hi; omega
  · by_cases h : buttonLevel p s.cfg.shiftIndex = s.shift <;> simp [h, c2]

/-- A report has at most one event for each index it runs over. -/
theorem length_filterMap_range_le {α} (n : Nat) (f : Nat → Option α) :
    ((List.range n).filterMap f).length ≤ n := by
  simpa using List.length_filterMap_le f (List.range n)

/-! ## Pads -/

theorem lastSample_succ (p : List Byte) (n : Nat) (pad : BitVec 4) :
    lastSample p (n+1) pad = if samplePad p n = pad then some n else lastSample p n pad := by
  unfold lastSample
  rw [List.range_succ, List.reverse_append]
  simp only [List.reverse_cons, List.reverse_nil, List.nil_append, List.cons_append, List.find?_cons]
  by_cases h : samplePad p n = pad <;> simp [h]

theorem velocity_eq (v : BitVec 12) : velocity v = BitVec.ofNat 8 (v.toNat / 16) := by
  apply BitVec.eq_of_toNat_eq
  simp [velocity, Nat.shiftRight_eq_div_pow]

/-- The pad loop, turn by turn. -/
theorem scanSamples_prefix (s : State) (p : List Byte) (n : Nat) :
    ∃ w, (List.range n).foldl (scanSample s.cfg.padThr s.shift p)
        { act := s.padAct, last := s.padLast, evs := [] } = w ∧
      (∀ q : Fin 16, w.act[q] = latchBefore s p n (BitVec.ofFin q)) ∧
      (∀ q : Fin 16, w.last[q] = valueBefore s p n (BitVec.ofFin q)) ∧
      w.evs = (List.range n).filterMap (padEventAt s p) := by
  induction n with
  | zero => exact ⟨_, rfl, fun q => rfl, fun q => rfl, rfl⟩
  | succ n ih =>
    obtain ⟨w, hw, h1, h2, h3⟩ := ih
    rw [List.range_succ, List.foldl_append, List.foldl_cons, List.foldl_nil, hw]
    refine ⟨_, rfl, ?_⟩
    have hl : w.act[(samplePad p n).toNat] = latchBefore s p n (samplePad p n) := h1 (samplePad p n).toFin
    have hlat : ∀ q : Fin 16, latchBefore s p (n+1) (BitVec.ofFin q) =
        if (samplePad p n).toNat = q.val then decide (s.cfg.padThr < (sampleValue p n).toNat)
        else latchBefore s p n (BitVec.ofFin q) := by
      intro q
      unfold latchBefore; rw [lastSample_succ]
      have : (samplePad p n = BitVec.ofFin q) ↔ (samplePad p n).toNat = q.val := by
        constructor
        · intro h; rw [h]; rfl
        · intro h; exact BitVec.eq_of_toNat_eq (by simpa using h)
      by_cases h : samplePad p n = BitVec.ofFin q
      · simp only [h, if_true]; simp
      · simp only [h, if_false]; rw [if_neg (by rwa [← this])]
    have hval : ∀ q : Fin 16, valueBefore s p (n+1) (BitVec.ofFin q) =
        if (samplePad p n).toNat = q.val then sampleValue p n else valueBefore s p n (BitVec.ofFin q) := by
      intro q
      unfold valueBefore; rw [lastSample_succ]
      have : (samplePad p n = BitVec.ofFin q) ↔ (samplePad p n).toNat = q.val := by
        constructor
        · intro h; rw [h]; rfl
        · intro h; exact BitVec.eq_of_toNat_eq (by simpa using h)
      by_cases h : samplePad p n = BitVec.ofFin q
      · simp only [h, if_true]; simp
      · simp only [h, if_false]; rw [if_neg (by rwa [← this])]
    have hlast : ∀ q : Fin 16, (w.last.set (samplePad p n).toNat (sampleValue p n) (samplePad p n).isLt)[q] =
        valueBefore s p (n+1) (BitVec.ofFin q) := by
      intro q; rw [hval, ← h2]; simp [Vector.getElem_set]
    have hev : (List.range n ++ [n]).filterMap (padEventAt s p) = w.evs ++ (padEventAt s p n).toList := by
      rw [List.filterMap_append, h3]; cases h : padEventAt s p n <;> simp [h]
    rw [hev]
    unfold scanSample
    simp only
    split
    · next h =>
      refine ⟨fun q => ?_, hlast, ?_⟩
      · simp only; rw [hlat, ← h1]; simp [Vector.getElem_set, h.1]
      · rw [hl] at h; simp [padEventAt, h, velocity_eq]
    · next h =>
      split
      · next h' =>
        refine ⟨fun q => ?_, hlast, ?_⟩
        · simp only; rw [hlat, ← h1]; have hd : decide (s.cfg.padThr < (sampleValue p n).toNat) = false := by simp [h'.1]
          by_cases hq : (samplePad p n).toNat = q.val <;> simp [hq, hd]
        · rw [hl] at h'; simp [padEventAt, h', Nat.not_lt.2 h'.1]
      · next h' =>
        refine ⟨fun q => ?_, hlast, ?_⟩
        · simp only; rw [hlat, ← h1]
          split
          · next hq =>
            have : w.act[q] = w.act[(samplePad p n).toNat] := by simp [hq]
            rw [this]
            cases ha : w.act[(samplePad p n).toNat] <;> simp [ha] at h h' ⊢ <;> omega
          · rfl
        · rw [hl] at h h'; simp only [padEventAt, h, h', if_false]; simp

/-- The pad loop as a whole. -/
theorem scanSamples_spec (s : State) (p : List Byte) :
    (scanSamples s p).act = Vector.ofFn (fun q => latchBefore s p 16 (BitVec.ofFin q)) ∧
    (scanSamples s p).last = Vector.ofFn (fun q => valueBefore s p 16 (BitVec.ofFin q)) ∧
    (scanSamples s p).evs = padEvents s p := by
  obtain ⟨w, hw, h1, h2, h3⟩ := scanSamples_prefix s p 16
  have : scanSamples s p = w := hw
  rw [this]
  refine ⟨?_, ?_, h3⟩
  · apply Vector.ext; intro i hi; simpa using h1 ⟨i, hi⟩
  · apply Vector.ext; intro i hi; simpa using h2 ⟨i, hi⟩

end Sys2Proof.Machine
end

