-- ==== Sys2Proof/Laws/Effects.lean ====
section
/-! SUPPORT. Every way an instruction can change a running block, said once: the whole-machine rules and the invariant
are case analyses over it. -/

namespace Sys2Proof.Machine

/-- The instructions that can write `FB` (R24). -/
def writesFrame : Instr → Bool
  | .setpxOff _ _ => true
  | .setpxOn _ _ => true
  | .getpx _ _ => false
  | .fillOff => true
  | .fillOn => true
  | .invert => true
  | .invrow _ => true
  | .clrdirty => false
  | .copy _ => true
  | .prcharOff _ _ _ => true
  | .prcharOn _ _ _ => true
  | .printOff _ _ _ => true
  | .printOn _ _ _ => true
  | .flush => false
  | .rdstat => false
  | .popev => false
  | .rptBtn _ => false
  | .rptPad _ => false
  | .rptIgnored _ => false

/-- The ways instruction `i` can change a running block in state `s`. -/
inductive Changes (s : State) : Instr → State → Prop
  /-- A silent no-op or an ignored report. -/
  | nothing (i : Instr) : Changes s i s
  /-- A fault. -/
  | raised (i : Instr) (f : BlockFault) : Changes s i (raise f s)
  /-- A write to the framebuffer, in canonical form and inside it. -/
  | wrote (i : Instr) (m : Memory) (hi : writesFrame i = true)
      (hm : FrameInv s → configFailure s.cfg = none → m.wf ∧ m.below (frameLength s.cfg)) :
      Changes s i (writeFrame m s)
  /-- A response. -/
  | answered (i : Instr) (r : Record) : Changes s i (emitResp r s)
  /-- CLRDIRTY. -/
  | cleared : Changes s .clrdirty { s with dirty := false }
  /-- A read-out: `dirty` is cleared or kept. -/
  | sent (msgs : List Record) (r : Byte) (d : Bool) (acks : List Ack) (draws : Nat) (hd : d = false ∨ d = s.dirty) :
      Changes s .flush { s with dirty := d, disp := s.disp ++ msgs, resp := s.resp ++ [[r]],
                                env := { s.env with acks := acks, ackDraws := draws } }
  /-- POPEV of a queued event. -/
  | popped (e : Event) (rest : List Event) (h : s.evq = e :: rest) :
      Changes s .popev (emitResp e.encode { s with evq := rest })
  /-- InvalidReport. -/
  | invalid (i : Instr) (tag : Byte) (n : Nat) : Changes s i (reportError tag n s)
  /-- An accepted button report. -/
  | buttons (p : List Byte) (evs : List Event) (h : s.evq.length + evs.length ≤ s.cfg.evqCap) :
      Changes s (.rptBtn p) { s with
        btn := (scanButtons s p).btn, shift := (scanButtons s p).shift, encLast := encoderRaw p,
        evq := s.evq ++ evs, ledreq := s.ledreq ++ (scanButtons s p).leds }
  /-- An accepted pad report. -/
  | pads (p : List Byte) (evs : List Event) (h : s.evq.length + evs.length ≤ s.cfg.evqCap) :
      Changes s (.rptPad p) { s with
        padAct := (scanSamples s p).act, padLast := (scanSamples s p).last, evq := s.evq ++ evs }

/-! ## The framebuffer writes stay inside the buffer -/

theorem setPixel_changes (i : Instr) (hi : writesFrame i = true) (on : Bool) (x y : Nat) (s : State) :
    Changes s i (setPixel on x y s) := by
  rcases setPixel_cases on x y s with ⟨-, h⟩ | ⟨-, -, h⟩ | ⟨-, h1, h⟩ <;> rw [h]
  · exact .nothing i
  · exact .raised i _
  · exact .wrote i _ hi fun hf _ => ⟨Memory.wf_write hf.1 _ _, Memory.below_write hf.2 h1 _⟩

/-- A memory written from a list of at most `LEN` bytes. -/
theorem frame_ofBytes {s : State} {vs : List Byte} (h : vs.length ≤ frameLength s.cfg) :
    (Memory.ofBytes 0 vs).wf ∧ (Memory.ofBytes 0 vs).below (frameLength s.cfg) :=
  ⟨Memory.wf_ofBytes 0 vs, Memory.below_ofBytes h⟩

theorem invertRow_changes (row : Nat) (r : U16) (s : State) : Changes s (.invrow r) (invertRow row s) := by
  rcases invertRow_cases row s with ⟨-, h⟩ | ⟨h1, h⟩ <;> rw [h]
  · exact .nothing _
  · refine .wrote _ _ rfl fun hf hc => ⟨Memory.wf_writeBytes hf.1 _ _, Memory.below_writeBytes hf.2 ?_⟩
    have h8 := frameLength_eq (height_of_config hc).1
    rw [h8, Nat.mul_comm] at h1
    have h2 : row + 1 ≤ s.cfg.height / 8 := Nat.lt_of_mul_lt_mul_left h1
    have h3 := Nat.mul_le_mul_left s.cfg.width h2
    rw [List.length_map, Memory.length_slice, h8]
    calc row * s.cfg.width + s.cfg.width = s.cfg.width * (row + 1) := by ring
      _ ≤ _ := h3

theorem printChar_changes (i : Instr) (hi : writesFrame i = true) (on : Bool) (c : Byte) (row col : Nat) (s : State) :
    Changes s i (printChar on c row col s) := by
  rcases printChar_cases on c row col s with ⟨-, h⟩ | ⟨-, -, h⟩ | ⟨-, h1, h⟩ <;> rw [h]
  · exact .nothing i
  · exact .raised i _
  · exact .wrote i _ hi fun hf _ => ⟨Memory.wf_writeBytes hf.1 _ _,
      Memory.below_writeBytes hf.2 (by rw [length_glyphBytes]; omega)⟩

/-- The write pass stays below a bound that every drawn cell respects. -/
theorem below_writeText {cfg : Config} {on : Bool} {row col n : Nat} (text : List Byte) (j0 : Nat) (m : Memory)
    (hm : m.below n) (h : ∀ j c, text[j]? = some c → Drawn c → cellBase cfg row col (j0 + j) + 4 < n) :
    (writeText cfg on row col j0 text m).below n := by
  induction text generalizing j0 m with
  | nil => exact hm
  | cons c t ih =>
    unfold writeText
    refine ih _ _ ?_ fun j c' hj hd => ?_
    · split
      · next hp =>
        have := h 0 c rfl ((printable_iff c).1 hp)
        exact Memory.below_writeBytes hm (by rw [length_glyphBytes]; simp at this; omega)
      · exact hm
    · have := h (j + 1) c' (by simpa using hj) hd
      rwa [Nat.add_assoc, Nat.add_comm 1 j]

theorem printText_changes (i : Instr) (hi : writesFrame i = true) (on : Bool) (row col : Nat) (text : List Byte)
    (s : State) : Changes s i (printText on row col text s) := by
  rcases printText_cases on row col text s with ⟨_, -, h⟩ | ⟨-, -, h⟩ | ⟨h1, -, h⟩ <;> rw [h]
  · exact .raised i _
  · exact .nothing i
  · exact .wrote i _ hi fun hf _ => ⟨wf_writeText _ _ _ hf.1,
      below_writeText _ _ _ hf.2 ((textOverrun_none text 0).1 h1)⟩

/-- Every effect is one of the listed changes. -/
theorem effect_changes (i : Instr) (s : State) : Changes s i (effect i s) := by
  cases i with
  | setpxOff x y => exact setPixel_changes _ rfl _ _ _ s
  | setpxOn x y => exact setPixel_changes _ rfl _ _ _ s
  | getpx x y =>
    rcases getPixel_cases x.toNat y.toNat s with ⟨-, h⟩ | ⟨-, -, h⟩ | ⟨-, -, h⟩ <;> simp only [effect, h]
    · exact .answered _ _
    · exact .raised _ _
    · exact .answered _ _
  | fillOff => exact .wrote _ _ rfl fun _ _ => frame_ofBytes (by simp)
  | fillOn => exact .wrote _ _ rfl fun _ _ => frame_ofBytes (by simp)
  | invert => exact .wrote _ _ rfl fun _ _ => frame_ofBytes (by simp)
  | invrow row => exact invertRow_changes _ _ s
  | clrdirty => exact .cleared
  | copy data =>
    rcases copyFrame_cases data s with ⟨h1, h⟩ | ⟨-, h⟩ <;> simp only [effect, h]
    · exact .wrote _ _ rfl fun _ _ => frame_ofBytes (Nat.le_of_eq h1)
    · exact .raised _ _
  | prcharOff c row col => exact printChar_changes _ rfl _ _ _ _ s
  | prcharOn c row col => exact printChar_changes _ rfl _ _ _ _ s
  | printOff row col text => exact printText_changes _ rfl _ _ _ _ s
  | printOn row col text => exact printText_changes _ rfl _ _ _ _ s
  | flush =>
    rcases flushFrame_cases s with ⟨-, h⟩ | ⟨-, -, h⟩ | ⟨-, -, h⟩ <;> simp only [effect, h]
    · exact .raised _ _
    · exact .answered _ _
    · obtain ⟨msgs, r, d, acks, draws, h1, h2⟩ := sendChunks_frame [0, 1, 2, 3] s
      rw [h1]
      exact .sent msgs r d acks draws (h2.imp (·.2) (·.1))
  | rdstat => exact .answered _ _
  | popev =>
    rcases popEvent_cases s with ⟨-, h⟩ | ⟨e, rest, h1, h⟩ <;> simp only [effect, h]
    · exact .answered _ _
    · exact .popped e rest h1
  | rptBtn p =>
    rcases buttonReport_cases p s with ⟨-, h⟩ | ⟨-, evs, -, ⟨-, h⟩ | ⟨h1, h⟩⟩ <;> simp only [effect, h]
    · exact .invalid _ _ _
    · exact .raised _ _
    · exact .buttons p evs h1
  | rptPad p =>
    rcases padReport_cases p s with ⟨-, h⟩ | ⟨-, ⟨-, h⟩ | ⟨h1, h⟩⟩ <;> simp only [effect, h]
    · exact .invalid _ _ _
    · exact .raised _ _
    · exact .pads p _ h1
  | rptIgnored r => exact .nothing _

/-- What a next state of an instruction can be. -/
theorem changes_of_exec {i : Instr} {s t : State} (h : exec i s = .next t) : Running s ∧ Changes s i t := by
  obtain ⟨hr, rfl⟩ := exec_eq_next.1 h
  exact ⟨hr, effect_changes i s⟩

end Sys2Proof.Machine
end

