-- ==== Sys2Proof/Laws/Encoding.lean ====
section
/-! SUPPORT. The u16 fields of port C and the opcode map. -/

namespace Sys2Proof

/-- A field's two bytes give the field back. -/
theorem u16_low_high (v : U16) : u16 (lowByte v) (highByte v) = v := by
  unfold u16 lowByte highByte
  apply BitVec.eq_of_getLsbD_eq
  intro i hi
  by_cases h : i < 8
  · simp [h, hi]
  · have h1 : i - 8 < 8 := by omega
    have h2 : 8 + (i - 8) = i := by omega
    simp [h, hi, h1, h2]

theorem lowByte_u16 (a b : Byte) : lowByte (u16 a b) = a := by
  unfold u16 lowByte
  apply BitVec.eq_of_getLsbD_eq
  intro i hi
  simp [hi]

theorem highByte_u16 (a b : Byte) : highByte (u16 a b) = b := by
  unfold u16 highByte
  apply BitVec.eq_of_getLsbD_eq
  intro i hi
  have : 8 + i < 16 := by omega
  simp [hi, this]

/-- The value of a field: low byte first (R73). -/
theorem toNat_u16 (a b : Byte) : (u16 a b).toNat = b.toNat * 256 + a.toNat := by
  have ha := a.isLt
  have hb := b.isLt
  have h := Nat.shiftLeft_add_eq_or_of_lt (a := b.toNat) (b := a.toNat) (i := 8) ha
  simp only [u16, BitVec.toNat_or, BitVec.toNat_shiftLeft, BitVec.toNat_setWidth]
  rw [Nat.mod_eq_of_lt (by omega), Nat.mod_eq_of_lt (a := b.toNat) (by omega),
    Nat.mod_eq_of_lt (by rw [Nat.shiftLeft_eq]; omega), Nat.or_comm, ← h, Nat.shiftLeft_eq]

/-- An opcode is reserved exactly when it is none of the defined ones. -/
theorem decodeRow_cases (op : Byte) (body : List Byte) :
    (op ∉ Machine.definedOpcodes ∧ decodeRow op body = none) ∨
    (op ∈ Machine.definedOpcodes ∧ ∃ o, decodeRow op body = some o) := by
  unfold decodeRow
  split <;> simp_all [Machine.definedOpcodes]

end Sys2Proof
end

