-- ==== Sys2Proof/Laws/PerInstr.lean ====
section
/-! SUPPORT. One lemma per constructor: the bytes of a well-formed instruction tell its own length (30_encoding.md R75)
or its route (R79, R80). -/

namespace Sys2Proof.Laws.CommandLength

/-- The length that R75 tells from a command's first bytes is the length of the command; a report's bytes route to
the instruction they encode (R80). -/
def Statement (i : Instr) : Prop :=
  i.wellFormed = true →
    match encode i with
    | .command bytes => commandLength (fun k => bytes.getD k 0x00) = some bytes.length
    | .report bytes => decodeReport bytes = i

theorem setpxOff (x : U16) (y : U16) : Statement (.setpxOff x y) := fun _ => rfl

theorem setpxOn (x : U16) (y : U16) : Statement (.setpxOn x y) := fun _ => rfl

theorem getpx (x : U16) (y : U16) : Statement (.getpx x y) := fun _ => rfl

theorem fillOff : Statement .fillOff := fun _ => rfl

theorem fillOn : Statement .fillOn := fun _ => rfl

theorem invert : Statement .invert := fun _ => rfl

theorem invrow (row : U16) : Statement (.invrow row) := fun _ => rfl

theorem clrdirty : Statement .clrdirty := fun _ => rfl

theorem copy (data : List Byte) : Statement (.copy data) := by
  intro h
  have hlt : data.length < 65536 := by simpa [Instr.wellFormed] using h
  have hn : (u16 (BitVec.ofNat 8 data.length) (BitVec.ofNat 8 (data.length / 256))).toNat = data.length := by
    rw [toNat_u16]; simp; omega
  simp [encode, commandLength, opcodeFormat, hn]; omega

theorem prcharOff (c : Byte) (row : U16) (col : U16) : Statement (.prcharOff c row col) := fun _ => rfl

theorem prcharOn (c : Byte) (row : U16) (col : U16) : Statement (.prcharOn c row col) := fun _ => rfl

theorem printOff (row : U16) (col : U16) (text : List Byte) : Statement (.printOff row col text) := by
  intro h
  have hlt : text.length < 256 := by simpa [Instr.wellFormed] using h
  simp [encode, commandLength, opcodeFormat, Nat.mod_eq_of_lt hlt]; omega

theorem printOn (row : U16) (col : U16) (text : List Byte) : Statement (.printOn row col text) := by
  intro h
  have hlt : text.length < 256 := by simpa [Instr.wellFormed] using h
  simp [encode, commandLength, opcodeFormat, Nat.mod_eq_of_lt hlt]; omega

theorem flush : Statement .flush := fun _ => rfl

theorem rdstat : Statement .rdstat := fun _ => rfl

theorem popev : Statement .popev := fun _ => rfl

theorem rptBtn (payload : List Byte) : Statement (.rptBtn payload) := fun _ => rfl

theorem rptPad (payload : List Byte) : Statement (.rptPad payload) := fun _ => rfl

theorem rptIgnored (report : List Byte) : Statement (.rptIgnored report) := by
  intro h
  cases report with
  | nil => rfl
  | cons tag rest =>
    simp only [Instr.wellFormed, Bool.and_eq_true, decide_eq_true_iff] at h
    simp only [encode, decodeReport]
    split
    · exact absurd rfl h.1
    · exact absurd rfl h.2
    · rfl

end Sys2Proof.Laws.CommandLength
end

