-- ==== Sys2Proof/Laws/Steps.lean ====
section
/-! SUPPORT. Everything a step can do, said once. -/

namespace Sys2Proof.Machine

/-- No instruction touches the configuration or the sequencer. -/
theorem Changes.cfg_host {i : Instr} {s t : State} (h : Changes s i t) : t.cfg = s.cfg ∧ t.host = s.host := by
  cases h <;> exact ⟨rfl, rfl⟩

/-- No instruction takes or adds an action of the host. -/
theorem Changes.input {i : Instr} {s t : State} (h : Changes s i t) : t.env.input = s.env.input := by
  cases h <;> rfl

/-- A performed item is an instruction, or the fault of an undecodable command. -/
theorem performItem_cases {item : Item} {s t : State} (h : performItem item s = .next t) :
   Running s ∧ ∃ i, Changes s i t := by
  unfold performItem at h
  split at h
  · obtain ⟨a, b⟩ := changes_of_exec h; exact ⟨a, _, b⟩
  · obtain ⟨a, b⟩ := performing_eq_next.1 h; subst b; exact ⟨a, .fillOff, .raised _ _⟩

/-- What follows a next state starts from one. -/
theorem andThen_next {o : Host.Outcome State Fault Refusal} {f : State → State} {t : State}
    (h : andThen o f = .next t) : ∃ u, o = .next u ∧ f u = t := by
  unfold andThen at h
  split at h
  · injection h with h; exact ⟨_, rfl, h⟩
  · simp at h
  · simp at h

/-- What a step can leave in the sequencer: nothing new, the next read of a stage, the end of a tick, or the first read
of a ReadInput stage. -/
def SequencerMoves (old new : Sequencer) : Prop :=
  new = old ∨ (∃ i, old.reading = some i ∧ i < 32 ∧ new = { old with reading := some (i + 1) }) ∨
  (∃ r, new = { phase := if r = .done then old.phase.following else old.phase, reading := none, lastTick := some r }) ∨
  (old.phase = .readInput ∧ new = { old with reading := some 0 })

/-- Everything a step can do: perform an instruction on a running block and move the sequencer, take something from the
environment alone, or reset. -/
inductive Steps (s : State) : State → Prop
  | item (env : Environment) (i : Instr) (u t : State) (hu : Changes { s with env := env } i u) (hr : Running s)
      (ht : ∃ env' host', t = { u with env := env', host := host' } ∧ SequencerMoves s.host host') : Steps s t
  | env (env : Environment) : Steps s { s with env := env }
  | reset (rest : List HostAction) : Steps s (performReset rest s)

theorem endTick_eq (r : TickResult) (s : State) : endTick r s = { s with host := {
    phase := if r = .done then s.host.phase.following else s.host.phase, reading := none, lastTick := some r } } := rfl

/-- A step from a state with other actions pending is a step: they are part of the environment. -/
theorem Steps.of_withInput {s t : State} {input : List HostAction} (h : Steps (withInput s input) t) : Steps s t := by
  cases h with
  | item env i u _ hu hr ht => exact .item env i u t hu hr ht
  | env env => exact .env env
  | reset rest => exact .reset rest

/-- What the operation of a tick or drain in progress can do, its count aside. -/
theorem steps_of_underway {operation : State → Host.Outcome State Fault Refusal} {s t : State}
    (op : ∀ {u}, operation (counted s) = .next u → Steps (counted s) u) (h : underway operation s = .next t) :
    Steps s t := by
  rcases underway_cases operation s with ⟨rest, -, e⟩ | ⟨-, e⟩
  · rw [e] at h; injection h with h; subst h; exact .reset rest
  · exact (op (e ▸ h)).of_withInput

/-- What a read of the ReadInput stage can do. -/
theorem steps_of_read {i : Nat} {s t : State} (hr : Running s) (hi : s.host.reading = some i)
    (h : stepRead i s = .next t) : Steps s t := by
  unfold stepRead at h
  split at h
  · injection h with h; subst h
    exact .item s.env .fillOff s _ (.nothing _) hr ⟨s.env, _, rfl, .inr (.inr (.inl ⟨_, rfl⟩))⟩
  · next hlt =>
    obtain ⟨-, reads, draws, hd⟩ := drawRead_spec s
    simp only [readsPerTick] at hlt
    split at h
    · next u hu => rw [hu] at hd; have hd : u = _ := hd; subst hd; injection h with h; subst h
                   exact .item _ .fillOff _ _ (.nothing _) hr ⟨_, _, rfl, .inr (.inr (.inl ⟨_, rfl⟩))⟩
    · next u hu => rw [hu] at hd; have hd : u = _ := hd; subst hd; injection h with h; subst h
                   exact .item _ .fillOff _ _ (.nothing _) hr ⟨_, _, rfl, .inr (.inr (.inl ⟨_, rfl⟩))⟩
    · next b bs u hu =>
      rw [hu] at hd; have hd : u = _ := hd; subst hd
      split at h
      · obtain ⟨v, hv, h⟩ := andThen_next h
        obtain ⟨_, i', hc⟩ := performItem_cases hv
        have hh := (Changes.cfg_host hc).2
        subst h
        unfold afterReport
        split
        · split
          · exact .item _ i' v _ hc hr ⟨v.env, _, endTick_eq _ v, .inr (.inr (.inl ⟨_, by rw [hh]⟩))⟩
          · exact .item _ i' v _ hc hr ⟨v.env, v.host, rfl, .inl hh⟩
        · exact .item _ i' v _ hc hr ⟨v.env, _, rfl, .inr (.inl ⟨i, hi, by omega, by rw [hh]⟩)⟩
      · injection h with h; subst h
        exact .item _ .fillOff _ _ (.nothing _) hr ⟨_, _, rfl, .inr (.inl ⟨i, hi, by omega, rfl⟩)⟩

/-- What the start of a tick can do. -/
theorem steps_of_tick {s t : State} (hr : Running s) (h : stepTick s = .next t) : Steps s t := by
  unfold stepTick at h
  split at h
  · obtain ⟨v, hv, h⟩ := andThen_next h
    obtain ⟨_, hc⟩ := changes_of_exec hv
    have hh := (Changes.cfg_host hc).2
    subst h
    unfold endSendFrame
    split
    · exact .item s.env _ v _ hc hr ⟨_, _, rfl, .inl hh⟩
    · exact .item s.env _ v _ hc hr ⟨_, _, endTick_eq _ v, .inr (.inr (.inl ⟨_, by rw [hh]⟩))⟩
  · injection h with h; subst h
    exact .item s.env .fillOff _ _ (.nothing _) hr ⟨_, _, rfl, .inr (.inr (.inl ⟨_, rfl⟩))⟩
  · next hp =>
    injection h with h; subst h
    exact .item s.env .fillOff _ _ (.nothing _) hr ⟨_, _, rfl, .inr (.inr (.inr ⟨hp, rfl⟩))⟩

/-- What a POPEV of a drain can do. -/
theorem steps_of_drain {s t : State} (hr : Running s) (h : stepDrain s = .next t) : Steps s t := by
  unfold stepDrain at h
  obtain ⟨v, hv, h⟩ := andThen_next h
  obtain ⟨_, hc⟩ := changes_of_exec hv
  have hh := (Changes.cfg_host hc).2
  subst h
  split
  · exact .item s.env _ v _ hc hr ⟨_, _, rfl, .inl hh⟩
  · exact .item s.env _ v _ hc hr ⟨_, _, rfl, .inl hh⟩

/-- What an action of the host can do, with a fault not recorded and reset released. -/
theorem steps_of_action {a : HostAction} {s t : State} (hr : Running s) (h : stepAction a s = .next t) :
    Steps s t := by
  unfold stepAction at h
  split at h
  · obtain ⟨_, i, hc⟩ := performItem_cases h
    exact .item s.env i t t hc hr ⟨_, _, rfl, .inl (Changes.cfg_host hc).2⟩
  · injection h with h; subst h; exact .reset _
  · injection h with h; subst h; exact .env s.env
  · exact steps_of_tick hr h
  · exact steps_of_underway (steps_of_drain (s := counted s) hr) h

/-- The inversion of a step: every invariant is a case analysis over it. -/
theorem steps_of_step {s t : State} (h : step s = .next t) : Steps s t := by
  unfold step stepMachine at h
  split at h
  · unfold stepInReset at h
    split at h <;> first | (injection h with h; subst h) | simp at h
    · exact .env s.env
    · exact .reset _
    · exact .env _
  split at h
  · next hr =>
    unfold stepRunning at h
    split at h
    · next i hi => exact steps_of_underway (steps_of_read (s := counted s) hr hi) h
    · split at h
      · injection h with h; subst h; exact .env s.env
      · next a rest _ => exact (steps_of_action (s := withInput s rest) hr h).of_withInput
  · unfold stepFaulted at h
    split at h
    · injection h with h; subst h; exact .reset _
    · simp at h

end Sys2Proof.Machine
end

