-- ==== Sys2Proof/Tests/Slice0.lean ====
section
/-! SUPPORT. Tests of the model's own work. Expected results are the vectors and worked examples of
95_test_vectors.md (`V<n>`, `E<n>`) or hand calculation from the rule named. Then, for each statement with hypotheses,
a state and operands that meet them, at the boundaries of its clauses. -/

namespace Sys2Proof.Tests

-- One theorem at a time: the evaluations need no parallel threads.
set_option Elab.async false

open Sys2Proof Sys2Proof.Machine

/-- What a next state shows, if the outcome is one. -/
def shown {α : Type} (o : Host.Outcome State Fault Refusal) (f : State → α) : Option α :=
  match o with
  | .next t => some (f t)
  | .fault _ => none
  | .refused _ => none

/-- An outcome that shows something is a next state that shows it. -/
theorem next_of_shown {α : Type} {o : Host.Outcome State Fault Refusal} {f : State → α} {v : α}
    (h : shown o f = some v) : ∃ t, o = .next t ∧ f t = v := by
  unfold shown at h
  split at h
  · next t => exact ⟨t, rfl, by simpa using h⟩
  · simp at h
  · simp at h

/-- A small legal configuration: 8 by 16 pixels, 16 bytes; button 1 is shift, 3 the sentinel; 4 queue places. -/
def tinyConfig : Config :=
  { hardwareConfig with width := 8, height := 16, buttonCount := 5, noneIndex := some 3, shiftIndex := 1,
                        padMin := 32, evqCap := 4 }

def tiny : State := State.initial tinyConfig

/-- A state whose next step takes the given action of the host. -/
def acting (a : HostAction) (s : State) : State := { s with env := { s.env with input := [a] } }

/-- A queue of `n` events. -/
def queue (n : Nat) : List Event := List.replicate n (.padChange 2 0x20 false)

/-- A payload of 32 bytes whose samples 0 and 1 are the given bytes and whose sample `j` names pad `j` with 0. -/
def payload (b0 b1 b2 b3 : Byte) : List Byte :=
  [b0, b1, b2, b3] ++ (List.range 14).flatMap fun j => [0x00, BitVec.ofNat 8 (16 * (j + 2))]

/-- The small machine with its sequencer in a given place and one transport read decided. -/
def sequenced (phase : Phase) (reading : Option Nat) (r : ReadResult) : State :=
  { tiny with cfg := { tinyConfig with padN := ⟨2, by decide⟩ },
              host := { phase := phase, reading := reading, lastTick := none }, env := { tiny.env with reads := [r] } }

/-! ## WellFormed: an ill-formed term for each check -/

theorem test_illFormed_copy : (Instr.copy (List.replicate 65536 0x00)).wellFormed = false := by
  rw [Instr.wellFormed, List.length_replicate]; rfl
theorem test_wellFormed_copy : (Instr.copy (List.replicate 65535 0x00)).wellFormed = true := by
  rw [Instr.wellFormed, List.length_replicate]; rfl
theorem test_illFormed_printOff : (Instr.printOff 0 0 (List.replicate 256 0x41)).wellFormed = false := by decide +kernel
theorem test_illFormed_printOn : (Instr.printOn 0 0 (List.replicate 256 0x41)).wellFormed = false := by decide +kernel
theorem test_wellFormed_printOn : (Instr.printOn 0 0 (List.replicate 255 0x41)).wellFormed = true := by decide +kernel
theorem test_illFormed_ignoredButton : (Instr.rptIgnored [0x01]).wellFormed = false := by decide
theorem test_illFormed_ignoredPad : (Instr.rptIgnored [0x20, 0x00]).wellFormed = false := by decide
theorem test_wellFormed_ignoredEmpty : (Instr.rptIgnored []).wellFormed = true := by decide

/-! ## Decode: a word of every row, written out from R72 to R74, R79, R80 -/

theorem test_decode_setpxOff :
    decodeItem (.command [0b00010000, 0x03, 0x00, 0x0A, 0x00]) = .ok (.setpxOff 3 10) := by rfl
/-- V1. -/
theorem test_decode_setpxOn :
    decodeItem (.command [0b00010001, 0x03, 0x00, 0x0A, 0x00]) = .ok (.setpxOn 3 10) := by rfl
theorem test_decode_getpx :
    decodeItem (.command [0b00010010, 0x34, 0x12, 0xCD, 0xAB]) = .ok (.getpx 0x1234 0xABCD) := by rfl
theorem test_decode_fillOff : decodeItem (.command [0b00100000]) = .ok .fillOff := by rfl
theorem test_decode_fillOn : decodeItem (.command [0b00100001]) = .ok .fillOn := by rfl
theorem test_decode_invert : decodeItem (.command [0b00100010]) = .ok .invert := by rfl
theorem test_decode_invrow : decodeItem (.command [0b00100100, 0x07, 0x01]) = .ok (.invrow 0x0107) := by rfl
theorem test_decode_clrdirty : decodeItem (.command [0b00100110]) = .ok .clrdirty := by rfl
theorem test_decode_copy :
    decodeItem (.command [0b00101000, 0x02, 0x00, 0xAA, 0x55]) = .ok (.copy [0xAA, 0x55]) := by rfl
/-- Format `CG` has the code byte before the row (R72). -/
theorem test_decode_prcharOff :
    decodeItem (.command [0b00110000, 0x41, 0x01, 0x00, 0x0A, 0x00]) = .ok (.prcharOff 0x41 1 10) := by rfl
theorem test_decode_prcharOn :
    decodeItem (.command [0b00110001, 0x7F, 0x01, 0x02, 0x0A, 0x0B]) = .ok (.prcharOn 0x7F 0x0201 0x0B0A) := by rfl
theorem test_decode_printOff :
    decodeItem (.command [0b00110010, 0x07, 0x00, 0x64, 0x00, 0x00]) = .ok (.printOff 7 100 []) := by rfl
theorem test_decode_printOn :
    decodeItem (.command [0b00110011, 0x07, 0x00, 0x64, 0x00, 0x02, 0x41, 0x42]) =
      .ok (.printOn 7 100 [0x41, 0x42]) := by rfl
theorem test_decode_flush : decodeItem (.command [0b01000000]) = .ok .flush := by rfl
theorem test_decode_rdstat : decodeItem (.command [0b01000100]) = .ok .rdstat := by rfl
theorem test_decode_popev : decodeItem (.command [0b01010000]) = .ok .popev := by rfl
theorem test_decode_rptBtn :
    decodeItem (.report [0x01, 0x21, 0x04, 0x00, 0x00, 0x0F]) = .ok (.rptBtn [0x21, 0x04, 0x00, 0x00, 0x0F]) := by rfl
theorem test_decode_rptPad : decodeItem (.report [0x20, 0x58, 0x32]) = .ok (.rptPad [0x58, 0x32]) := by rfl
theorem test_decode_rptIgnored : decodeItem (.report [0x07, 0xAA]) = .ok (.rptIgnored [0x07, 0xAA]) := by rfl
theorem test_decode_emptyReport : decodeItem (.report []) = .ok (.rptIgnored []) := by rfl

/-- V90: an odd opcode of an operation without a state is reserved. -/
theorem test_decode_reserved : decodeItem (.command [0x13]) = .error (.illegal 0x13) := by rfl
/-- V92: an empty command (R198). -/
theorem test_decode_empty : decodeItem (.command []) = .error (.malformed 0x00 0) := by rfl
/-- V93, V94, V35: too short, too long, and shorter than its count (R77). -/
theorem test_decode_malformed :
    decodeItem (.command [0x11, 0x03, 0x00, 0x0A]) = .error (.malformed 0x11 4) ∧
    decodeItem (.command [0x20, 0x00]) = .error (.malformed 0x20 2) ∧
    decodeItem (.command [0x28, 0x02, 0x00, 0xAA]) = .error (.malformed 0x28 4) := ⟨rfl, rfl, rfl⟩

/-- The words of the opcode table: operand bytes the table leaves out are 0 (R74, R80). -/
theorem test_tableWords :
    decodeTableWord 8 0x11 = some (.setpxOn 0 0) ∧ decodeTableWord 8 0x33 = some (.printOn 0 0 []) ∧
    decodeTableWord 8 0x28 = some (.copy []) ∧ decodeTableWord 8 0x20 = some .fillOff ∧
    decodeTableWord 8 0x01 = some (.rptBtn [0, 0, 0, 0, 0]) ∧ decodeTableWord 8 0x00 = some (.rptIgnored [0]) ∧
    decodeTableWord 24 0x0A0324 = some (.invrow 0x0A03) := by decide +kernel

/-- The pad sample of R160's example: `58 32` is pad 3, value 600. -/
theorem test_sample : samplePad [0x58, 0x32] 0 = 3 ∧ sampleValue [0x58, 0x32] 0 = 600 := by decide
/-- R94's encoding of the same sample. -/
theorem test_encodeSample : encodeSample 3 600 = [0x58, 0x32] := by decide
/-- R95. -/
theorem test_pseudo : (Pseudo.set 3 10).expand = .setpxOn 3 10 ∧ Pseudo.clear.expand = .fillOff := by decide

/-! ## Canvas -/

/-- V1 (E1): pixel (3, 10) is bit 2 of byte 131; V3: `x = W` writes the first column of the next row group. -/
theorem test_setpxOn : shown (exec (.setpxOn 3 10) State.reset) (fun t => (t.fb, t.dirty)) =
    some ([(131, 0x04)], true) ∧
    shown (exec (.setpxOn 128 9) State.reset) (fun t => t.fb) = some [(256, 0x02)] := by decide +kernel
/-- V6: `y = H` faults with index 1024; V7, V8: beyond the check nothing happens; V11: strict mode at `x = W`. -/
theorem test_setpxOn_edges : shown (exec (.setpxOn 0 64) State.reset) (fun t => (t.fault, t.err, t.fb, t.dirty)) =
    some (0x11, [[0x11, 0x00, 0x04, 0x00, 0x00]], [], false) ∧
    shown (exec (.setpxOn 129 0) State.reset) id = some State.reset ∧
    shown (exec (.setpxOn 0 65) State.reset) id = some State.reset ∧
    shown (exec (.setpxOn 128 9) (State.initial { hardwareConfig with bound := .strict })) (fun t => t.dirty) =
      some false := ⟨by decide +kernel, by decide +kernel, by decide +kernel, by decide +kernel⟩
/-- V10: clearing a clear pixel still sets `dirty`. -/
theorem test_setpxOff : shown (exec (.setpxOff 0 0) State.reset) (fun t => (t.fb, t.dirty)) =
    some ([], true) := by decide +kernel
/-- A set pixel of the first column's neighbour (R102), and V15 on 8 columns. -/
theorem test_getpx : shown (exec (.getpx 1 0) { tiny with fb := [(1, 0x01)] }) (fun t => t.resp) = some [[0x01]] ∧
    shown (exec (.getpx 9 0) tiny) (fun t => t.resp) = some [[0x80]] := by decide +kernel
/-- V18, V19 on 16 bytes. -/
theorem test_fillOn : shown (exec .fillOn tiny) (fun t => (t.fb.map (·.2), t.dirty)) =
    some (List.replicate 16 0xFF, true) := by decide +kernel
theorem test_fillOff : shown (exec .fillOff { tiny with fb := [(3, 0x55)] }) (fun t => (t.fb, t.dirty)) =
    some ([], true) := by decide +kernel
/-- R104's example: `0F` becomes `F0`; here the other bytes become `FF`. -/
theorem test_invert : shown (exec .invert { tiny with fb := [(0, 0x0F)] }) (fun t => (t.fb.take 2, t.fb.length)) =
    some ([(0, 0xF0), (1, 0xFF)], 16) := by decide +kernel
/-- V28, V29: the last row group and the first row past the end. -/
theorem test_invrow : shown (exec (.invrow 1) tiny) (fun t => (t.fb.map (·.1), t.dirty)) =
    some ([8, 9, 10, 11, 12, 13, 14, 15], true) ∧
    shown (exec (.invrow 2) tiny) id = some tiny := by decide +kernel
/-- V21. -/
theorem test_clrdirty : shown (exec .clrdirty { tiny with dirty := true }) id = some tiny := by decide +kernel
/-- V32 and V33 on 16 bytes. -/
theorem test_copy :
    shown (exec (.copy ((List.range 16).map (BitVec.ofNat 8))) tiny) (fun t => (t.fb.length, t.fb.read 12, t.dirty)) =
      some (15, 0x0C, true) ∧
    shown (exec (.copy (List.replicate 15 0xFF)) tiny) (fun t => (t.fb, t.err)) =
      some ([], [[0x12, 0x0F, 0x00]]) := by decide +kernel
/-- R112's example, and V26 with the shift flag set. -/
theorem test_rdstat : shown (exec .rdstat { tiny with dirty := true, evq := queue 1 }) (fun t => t.resp) =
    some [[0x05, 0x01, 0x00]] ∧
    shown (exec .rdstat { tiny with shift := true, evq := queue 1024 }) (fun t => t.resp) =
      some [[0x06, 0x00, 0x04]] := by decide +kernel

/-! ## Glyphs -/

/-- V36, V37: R131's examples. -/
theorem test_prcharOn : shown (exec (.prcharOn 0x41 0 0) State.reset) (fun t => t.fb) =
    some [(0, 0x7C), (1, 0x12), (2, 0x11), (3, 0x12), (4, 0x7C)] := by decide +kernel
theorem test_prcharOff : shown (exec (.prcharOff 0x41 1 10) State.reset) (fun t => t.fb) =
    some [(138, 0x83), (139, 0xED), (140, 0xEE), (141, 0xED), (142, 0x83)] := by decide +kernel
/-- V38, V39: the last place that fits and the first that does not; V42, V43: codes outside the range are skipped. -/
theorem test_prcharOn_edges : shown (exec (.prcharOn 0x41 7 123) State.reset) (fun t => t.fb.map (·.1)) =
    some [1019, 1020, 1021, 1022, 1023] ∧
    shown (exec (.prcharOn 0x41 7 124) State.reset) (fun t => (t.fb, t.err)) =
      some ([], [[0x11, 0x00, 0x04, 0x00, 0x00]]) ∧
    shown (exec (.prcharOn 0x80 9 0) State.reset) id = some State.reset ∧
    shown (exec (.prcharOn 0x1F 2 0) State.reset) id = some State.reset := by decide +kernel
/-- V46: R133's example. -/
theorem test_printOn : shown (exec (.printOn 0 0 [0x41, 0x42]) State.reset) (fun t => t.fb) =
    some [(0, 0x7C), (1, 0x12), (2, 0x11), (3, 0x12), (4, 0x7C), (6, 0x7F), (7, 0x49), (8, 0x49), (9, 0x49), (10, 0x36)] :=
  by decide +kernel
/-- A skipped code advances (R133), drawn inverted: the space is `FF` in five columns from column 6. -/
theorem test_printOff : shown (exec (.printOff 0 0 [0x0A, 0x20]) State.reset) (fun t => t.fb) =
    some [(6, 0xFF), (7, 0xFF), (8, 0xFF), (9, 0xFF), (10, 0xFF)] := by decide +kernel
/-- V49: the fifth character overruns and nothing is written; V51, V52: nothing to draw. -/
theorem test_printOn_edges :
    shown (exec (.printOn 7 100 [0x41, 0x41, 0x41, 0x41, 0x41]) State.reset) (fun t => (t.fb, t.dirty, t.err)) =
      some ([], false, [[0x11, 0x00, 0x04, 0x00, 0x00]]) ∧
    shown (exec (.printOn 0 0 []) State.reset) id = some State.reset ∧
    shown (exec (.printOn 0 0 [0x01, 0x02]) State.reset) id = some State.reset := by decide +kernel

/-! ## Read-out -/

/-- R142's example: message 1 has header byte `02` and payload byte 44 equal to `AA`. -/
theorem test_flush :
    shown (exec .flush { State.reset with
        fb := [(300, 0xAA)], dirty := true,
        env := { State.reset.env with acks := List.replicate 4 .accepted } })
      (fun t => (t.disp.map fun m : Record => (m.length, m.getD 3 0x00, m.getD 53 0x00), t.resp, t.dirty)) =
    some ([(265, 0x00, 0x00), (265, 0x02, 0xAA), (265, 0x04, 0x00), (265, 0x06, 0x00)], [[0x04]], false) := by
  decide +kernel
/-- V57: refused at message 1; V54: nothing to send; V59: another geometry. -/
theorem test_flush_edges :
    shown (exec .flush { State.reset with
        dirty := true, env := { State.reset.env with acks := [.accepted, .refused] } })
      (fun t => (t.disp.length, t.resp, t.dirty)) = some (2, [[0x81]], true) ∧
    shown (exec .flush State.reset) (fun t => (t.resp, t.disp)) = some ([[0x00]], []) ∧
    shown (exec .flush tiny) (fun t => t.err) = some [[0x15, 0x08, 0x00, 0x10, 0x00]] := by decide +kernel

/-! ## Reports and events -/

/-- V62: with the fixture's shift index 5, button 0 carries the old shift value; V64: button 6, above the shift button,
carries the new one, and an encoder event follows (E6: 0 to 15 is Down). -/
theorem test_rptBtn : shown (exec (.rptBtn [0x21, 0x00, 0x00, 0x00, 0x00]) State.reset)
    (fun t => (t.evq.map Event.encode, t.ledreq, t.shift)) =
      some ([[0x01, 0x00, 0x01, 0x00]], [[0x01, 0x01]], true) ∧
    shown (exec (.rptBtn [0x60, 0x00, 0x00, 0x00, 0x0F]) State.reset) (fun t => t.evq.map Event.encode) =
      some [[0x01, 0x06, 0x01, 0x01], [0x02, 0x00, 0x02, 0x01]] := by decide +kernel
/-- V68: a short report; V97: an overflow commits nothing. -/
theorem test_rptBtn_edges : shown (exec (.rptBtn [0, 0, 0, 0]) State.reset) (fun t => (t.err, t.fault)) =
    some ([[0x01, 0x01, 0x04, 0x00]], 0x00) ∧
    shown (exec (.rptBtn [0x01, 0, 0, 0, 0]) { tiny with evq := queue 4 }) (fun t => (t.evq.length, t.btn, t.err)) =
      some (4, List.replicate 5 false, [[0x16, 0x01]]) := by decide +kernel
/-- R153's corner cases: 14 to 1, 1 to 14, 15 to 0, 0 to 15, 3 to 200. -/
theorem test_encdir : encoderDirection 14 1 = .down ∧ encoderDirection 1 14 = .up ∧ encoderDirection 15 0 = .up ∧
    encoderDirection 0 15 = .down ∧ encoderDirection 3 200 = .up := by decide
/-- R160's example at position 0 (the pad comes from the data), and a value at the threshold. -/
theorem test_rptPad : shown (exec (.rptPad (payload 0x58 0x32 0x00 0x12)) tiny) (fun t => t.evq.map Event.encode) =
    some [[0x03, 0x03, 0x25, 0x00], [0x03, 0x03, 0x00, 0x00]] := by decide +kernel
theorem test_rptPad_threshold : shown (exec (.rptPad (payload 0x00 0x02 0x01 0x12)) tiny)
    (fun t => (t.evq.map Event.encode, t.padLast[0], t.padAct[1])) =
      some ([[0x03, 0x01, 0x20, 0x00]], 512, true) := by decide +kernel
/-- V86: an unknown tag. -/
theorem test_rptIgnored : shown (exec (.rptIgnored [0x07, 0xAA]) tiny) id = some tiny := by decide +kernel
/-- R165's example, and V88. -/
theorem test_popev : shown (exec .popev { tiny with evq := [.buttonChange 0 true false] }) (fun t => (t.resp, t.evq)) =
    some ([[0x01, 0x00, 0x01, 0x00]], []) ∧
    shown (exec .popev tiny) (fun t => t.resp) = some [[0x00]] := by decide +kernel

/-! ## Faults, reset and the host -/

/-- V90: a reserved opcode; after it the block has no step. -/
theorem test_illegal : shown (step (acting (.deliver (.command [0x13])) tiny)) (fun t => (t.fault, t.err)) =
    some (0x13, [[0x13, 0x13]]) := by decide +kernel
/-- V93: a malformed command. -/
theorem test_malformed : shown (step (acting (.deliver (.command [0x11, 3, 0, 10])) tiny)) (fun t => t.err) =
    some [[0x14, 0x11, 0x04, 0x00]] := by decide +kernel
theorem test_stuck : shown (step { tiny with fault := 0x13 }) id = none := by decide +kernel
/-- V96: reset leaves the fault state and discards what was pending. -/
theorem test_reset_clears :
    shown (step { tiny with fault := 0x13, err := [[0x13, 0x13]], dirty := true,
                            env := { tiny.env with input := [.tick, .assertReset 3, .releaseReset] } })
      (fun t => (t.fault, t.err, t.dirty, t.env.input)) = some (0x00, [], false, [.releaseReset]) := by decide +kernel
/-- Reset at any time (R220, R230): before the read a ReadInput stage is about to make, which stays unmade. -/
theorem test_reset_in_stage :
    shown (step (withInput (sequenced .readInput (some 7) (.bytes [0x01])) [.assertReset 0, .tick])) (fun t =>
      (t.host.phase, t.host.reading, t.env.resetLine, t.env.input)) = some (.sendFrame, none, true, [.tick]) ∧
    shown (step (withInput (sequenced .readInput (some 7) (.bytes [0x01])) [.assertReset 0, .tick])) (fun t =>
      (t.err, t.env.reads)) = some ([], [.bytes [0x01]]) := by decide +kernel
/-- Two reads later, with one of them made here. -/
theorem test_reset_two_reads_on :
    shown (step (withInput (sequenced .readInput (some 7) (.bytes [0x21])) [.assertReset 2])) (fun t =>
      (t.host.reading, t.env.input, t.env.reads)) = some (some 8, [.assertReset 1], []) := by decide +kernel
/-- In the middle of a drain, after one of two events. -/
theorem test_reset_in_drain :
    shown (core.run 2 (withInput { tiny with evq := queue 2 } [.drain, .assertReset 1, .tick])) (fun t =>
      (t.evq, t.resp, t.env.resetLine, t.env.input)) = some ([], [], true, [.tick]) := by decide +kernel
/-- V100: a height of 60 fails the check with reason 1. -/
theorem test_config : (State.initial { hardwareConfig with height := 60 }).err = [[0x10, 0x01]] := by decide +kernel
/-- E9: a SendFrame tick with nothing dirty still advances. -/
theorem test_tick : shown (step (acting .tick State.reset)) (fun t => (t.resp, t.host)) =
    some ([[0x00]], { phase := .sendLeds, reading := none, lastTick := some .done }) := by decide +kernel
/-- A pad report on an unsampled read is dropped (R217). -/
theorem test_unsampled :
    shown (step { tiny with cfg := { tinyConfig with padN := ⟨2, by decide⟩ },
                            host := { phase := .readInput, reading := some 1, lastTick := none },
                            env := { tiny.env with reads := [.bytes [0x20]] } })
      (fun t => (t.err, t.host.reading)) = some ([], some 2) := by decide +kernel
/-- A short report ends the tick and the phase stays (R219). -/
theorem test_tick_invalid :
    shown (step { tiny with host := { phase := .readInput, reading := some 0, lastTick := none },
                            env := { tiny.env with reads := [.bytes [0x01]] } }) (fun t => t.host) =
      some { phase := .readInput, reading := none, lastTick := some (.invalidReport [0x01, 0x01, 0x00, 0x00]) } := by
  decide +kernel
/-- The memory drops a cell that takes the unlisted value. -/
theorem test_memory_canonical : Memory.write [(1, 0x05), (3, 0x07)] 1 0x00 = [(3, 0x07)] ∧
    Memory.write [(1, 0x05), (3, 0x07)] 2 0x01 = [(1, 0x05), (2, 0x01), (3, 0x07)] := by decide

/-! ## Witnesses: for each statement with hypotheses, values that meet them together, clause by clause -/

/-- The hypotheses on the state that the instruction statements share. -/
theorem test_meets_shared : Running State.reset ∧ FrameInv State.reset ∧ ButtonInv State.reset ∧
    QueueInv State.reset ∧ configFailure State.reset.cfg = none := by decide +kernel
theorem test_meets_shared_tiny : Running tiny ∧ FrameInv tiny ∧ ButtonInv tiny ∧ QueueInv tiny ∧
    configFailure tiny.cfg = none := by decide +kernel

/-- DecodeAfterEncodeIsIdentity, at the longest text; DecodedItemsAreEncodings, at the empty report. -/
theorem test_meets_roundTrip : (Instr.printOff 65535 65535 (List.replicate 255 0x41)).wellFormed = true ∧
    decodeItem (.report []) = .ok (.rptIgnored []) := ⟨by decide +kernel, rfl⟩
/-- ReservedOpcodeRaisesIllegal. -/
theorem test_meets_reserved : (0xFF#8 ∉ definedOpcodes) ∧
    Ready (acting (.deliver (.command [0xFF, 0x00])) tiny) (.command [0xFF, 0x00]) [] := by decide +kernel
/-- WrongLengthRaisesMalformed: the empty command; one byte short and one byte long of its five. -/
theorem test_meets_malformed_empty : Ready (acting (.deliver (.command [])) tiny) (.command []) [] := by
  decide +kernel
theorem test_meets_malformed :
    (commandLength (fun k => [0x11, 0, 0, 0].getD k 0x00) = some 5 ∧
      Ready (acting (.deliver (.command [0x11, 0, 0, 0])) tiny) (.command [0x11, 0, 0, 0]) []) ∧
    (commandLength (fun k => [0x11, 0, 0, 0, 0, 0].getD k 0x00) = some 5 ∧
      Ready (acting (.deliver (.command [0x11, 0, 0, 0, 0, 0])) tiny) (.command [0x11, 0, 0, 0, 0, 0]) []) := by
  decide +kernel
/-- StepPerformsTheDecodedItem. -/
theorem test_meets_step : Ready (acting (.deliver (.command [0x21])) tiny) (.command [0x21]) [] ∧
    decodeItem (.command [0x21]) = .ok .fillOn := ⟨by decide +kernel, rfl⟩
/-- AssembledPadReportHoldsItsSamples, at the shortest payload. -/
theorem test_meets_assemble : (assemblePadReport 32 [4095]).length = 33 := by decide +kernel

/-- SetPixelFollowsItsRule and GetPixelFollowsItsRule, at the corners of the check: outside at `W + 1` and `H + 1`,
overrunning at `y = H` and at `x = W` of the last row group, inside at `x = W` of the one before and at the last
pixel; in strict mode outside at `W` and at `H`. -/
theorem test_meets_pixel_outside : Running State.reset ∧ FrameInv State.reset ∧
    ¬PassesBound State.reset.cfg 129 0 ∧ ¬PassesBound State.reset.cfg 0 65 := by decide +kernel
theorem test_meets_pixel_strict :
    ¬PassesBound { tinyConfig with bound := .strict } 8 0 ∧ ¬PassesBound { tinyConfig with bound := .strict } 0 16 ∧
    PassesBound { tinyConfig with bound := .strict } 7 15 := by decide +kernel
theorem test_meets_pixel_overrun : Running State.reset ∧ FrameInv State.reset ∧
    PassesBound State.reset.cfg 0 64 ∧
    frameLength State.reset.cfg ≤ State.reset.cfg.width * (64 / 8) + 0 ∧
    PassesBound State.reset.cfg 128 56 ∧
    frameLength State.reset.cfg ≤ State.reset.cfg.width * (56 / 8) + 128 := by decide +kernel
theorem test_meets_pixel_inside : Running State.reset ∧ FrameInv State.reset ∧
    PassesBound State.reset.cfg 128 55 ∧
    State.reset.cfg.width * (55 / 8) + 128 < frameLength State.reset.cfg ∧
    PassesBound State.reset.cfg 127 63 ∧
    State.reset.cfg.width * (63 / 8) + 127 < frameLength State.reset.cfg := by decide +kernel
/-- SetPixelIsReadBack, at the last pixel of the picture. -/
theorem test_meets_readBack : Running State.reset ∧ FrameInv State.reset ∧ configFailure State.reset.cfg = none ∧
    (127#16).toNat < State.reset.cfg.width ∧ (63#16).toNat < State.reset.cfg.height := by decide +kernel
/-- The pairs of the statements over the four operations with a state. -/
theorem test_meets_pairs :
    ((true, Instr.setpxOn 3 10) ∈ [(true, Instr.setpxOn 3 10), (false, Instr.setpxOff 3 10)]) ∧
    ((false, Instr.fillOff) ∈ [(true, Instr.fillOn), (false, Instr.fillOff)]) ∧
    ((true, Instr.prcharOn 0x41 7 123) ∈ [(true, Instr.prcharOn 0x41 7 123), (false, Instr.prcharOff 0x41 7 123)]) ∧
    ((false, Instr.printOff 7 100 []) ∈ [(true, Instr.printOn 7 100 []), (false, Instr.printOff 7 100 [])]) := by
  decide
/-- InvertRowFollowsItsRule and InvertRowTwiceRestores: the last row group and the first past the end. -/
theorem test_meets_invrow : Running State.reset ∧ FrameInv State.reset ∧
    (7#16).toNat * State.reset.cfg.width < frameLength State.reset.cfg ∧
    frameLength State.reset.cfg ≤ (8#16).toNat * State.reset.cfg.width := by decide +kernel
/-- CopyFollowsItsRule: the length, one less, and none. -/
theorem test_meets_copy : (List.replicate 1024 0x00#8).length = frameLength State.reset.cfg ∧
    (List.replicate 1023 0x00#8).length ≠ frameLength State.reset.cfg ∧
    ([] : List Byte).length ≠ frameLength State.reset.cfg := by
  simp only [List.length_replicate, List.length_nil]; decide +kernel

/-- PrintCharFollowsItsRule: the codes next to the printable range, the last column that fits and the next. -/
theorem test_meets_prchar : Running State.reset ∧ FrameInv State.reset ∧
    ¬Drawn 0x1F ∧ ¬Drawn 0x80 ∧ Drawn 0x20 ∧ Drawn 0x7F ∧
    State.reset.cfg.width * 7 + 123 + 4 < frameLength State.reset.cfg ∧
    frameLength State.reset.cfg ≤ State.reset.cfg.width * 7 + 124 + 4 := by decide +kernel
/-- PrintFollowsItsRule, first clause: of five characters from row 7, column 100 the fifth is the first to overrun. -/
theorem test_meets_print_overrun : Running State.reset ∧ FrameInv State.reset ∧ ∃ c, ([0x41, 0x41, 0x41, 0x41, 0x41] : List Byte)[4]? = some c ∧ Drawn c ∧
    frameLength State.reset.cfg ≤ (State.reset.cfg.width * 7 + 100 + 4 * State.reset.cfg.advance) + 4 ∧
    ∀ j' c', j' < 4 → ([0x41, 0x41, 0x41, 0x41, 0x41] : List Byte)[j']? = some c' → Drawn c' →
      (State.reset.cfg.width * 7 + 100 + j' * State.reset.cfg.advance) + 4 < frameLength State.reset.cfg := by
  refine ⟨test_meets_shared.1, test_meets_shared.2.1, 0x41, rfl, by decide, by decide, fun j' c' hj _ _ => ?_⟩
  simp only [State.reset, State.initial, hardwareConfig, frameLength]
  omega
/-- PrintFollowsItsRule, second clause, and PrintEqualsPrintChars: four of them fit, the last at the last place. -/
theorem test_meets_print_fits : Running State.reset ∧ FrameInv State.reset ∧
    (∀ j c, ([0x41, 0x41, 0x41, 0x41] : List Byte)[j]? = some c → Drawn c →
      (State.reset.cfg.width * 7 + 100 + j * State.reset.cfg.advance) + 4 < frameLength State.reset.cfg) ∧
    (100#16).toNat + ([0x41, 0x41, 0x41, 0x41] : List Byte).length * State.reset.cfg.advance < 65536 := by
  refine ⟨test_meets_shared.1, test_meets_shared.2.1, fun j c h _ => ?_, by decide⟩
  have hj : j < 4 := (List.getElem?_eq_some_iff.1 h).1
  simp only [State.reset, State.initial, hardwareConfig, frameLength]
  omega
/-- A byte of a cell that no later cell covers, and one that a later cell covers when the pitch is below 5. -/
theorem test_meets_print_cells :
    (∀ j', 3 < j' → j' < 4 → cellBase hardwareConfig 7 100 3 + 4 < cellBase hardwareConfig 7 100 j') ∧
    cellBase { hardwareConfig with advance := 3 } 0 0 1 ≤ cellBase { hardwareConfig with advance := 3 } 0 0 0 + 3 := by
  refine ⟨fun j' h1 h2 => by omega, by decide⟩

/-- FlushFollowsItsRule: another geometry; nothing dirty; all four answers; refusals at the first and last message. -/
theorem test_meets_flush_geometry : Running tiny ∧ ¬(tiny.cfg.width = 128 ∧ tiny.cfg.height = 64) := by
  decide +kernel
theorem test_meets_flush_clean : Running State.reset ∧ State.reset.cfg.width = 128 ∧ State.reset.cfg.height = 64 ∧
    State.reset.dirty = false := by decide +kernel
/-- A running block of that geometry with `dirty = 1` and the given answers listed. -/
def flushing (acks : List Ack) : State :=
  { State.reset with dirty := true, env := { State.reset.env with acks := acks } }
theorem test_meets_flush_dirty (acks : List Ack) : Running (flushing acks) ∧ (flushing acks).cfg.width = 128 ∧
    (flushing acks).cfg.height = 64 ∧ (flushing acks).dirty = true ∧ (flushing acks).env.acks = acks :=
  ⟨test_meets_shared.1, rfl, rfl, rfl, rfl⟩
theorem test_meets_flush_accepted (s : State) (h : s.env.acks = List.replicate 4 .accepted) :
    ∀ k < 4, ackAt s k = .accepted := by
  intro k hk
  have : s.env.acks[k]? = some .accepted := by rw [h, List.getElem?_replicate, if_pos hk]
  simp [ackAt, this]
theorem test_meets_flush_refused (s : State) (k : Nat) (h : s.env.acks = List.replicate k .accepted ++ [.refused]) :
    (∀ j < k, ackAt s j = .accepted) ∧ ackAt s k = .refused := by
  refine ⟨fun j hj => ?_, ?_⟩
  · have : s.env.acks[j]? = some .accepted := by
      rw [h, List.getElem?_append_left (by simpa using hj), List.getElem?_replicate, if_pos hj]
    simp [ackAt, this]
  · have : s.env.acks[k]? = some .refused := by rw [h]; simp
    simp [ackAt, this]

/-- ButtonReportLengthFollowsItsRule: four bytes and five. -/
theorem test_meets_button_length : ([0, 0, 0, 0] : List Byte).length < 5 ∧ 5 ≤ ([0, 0, 0, 0, 0] : List Byte).length := by
  decide
/-- ButtonReportFollowsItsRule: two events that just fit the queue, and the same two one place short. -/
theorem test_meets_button : ∀ n : Fin 4, Running { tiny with evq := queue n } ∧ ButtonInv { tiny with evq := queue n } ∧
    configFailure { tiny with evq := queue n }.cfg = none ∧
    (buttonEvents { tiny with evq := queue n } [0x01, 0, 0, 0, 0x0F] ++
      turnEvents { tiny with evq := queue n } [0x01, 0, 0, 0, 0x0F]).length = 2 := by decide +kernel
theorem test_meets_button_queue : { tiny with evq := queue 2 }.evq.length + 2 = tiny.cfg.evqCap ∧
    tiny.cfg.evqCap < { tiny with evq := queue 3 }.evq.length + 2 := by decide +kernel
/-- RepeatedButtonReportChangesNothing: a report with two events, an LED request and a new shift level. -/
theorem test_meets_repeated : Running tiny ∧ tiny.btn.length = tiny.cfg.buttonCount ∧
    ∃ t, exec (.rptBtn [0x03, 0, 0, 0, 0x0F]) tiny = .next t ∧ (t.fault, t.evq.length) = (0x00, 2) :=
  ⟨by decide +kernel, by decide, next_of_shown (by decide +kernel)⟩
/-- EncoderDirectionFollowsItsRule. -/
theorem test_meets_encoder : (0#8 ≠ 15#8) ∧ (15#8 ≠ 0#8) := by decide
/-- PadReportLengthFollowsItsRule: one byte short of `PAD_MIN`; two payloads of 34 bytes that agree on 32. -/
theorem test_meets_pad_length : (List.replicate 31 0x00#8).length < tiny.cfg.padMin ∧
    tiny.cfg.padMin ≤ (payload 1 2 3 4 ++ [5, 6]).length ∧
    (payload 1 2 3 4 ++ [7, 8]).length = (payload 1 2 3 4 ++ [5, 6]).length ∧
    (payload 1 2 3 4 ++ [7, 8]).take 32 = (payload 1 2 3 4 ++ [5, 6]).take 32 := by decide +kernel
/-- PadReportFollowsItsRule: two events of one pad that just fit the queue, and one place short. -/
theorem test_meets_pad : tiny.cfg.padMin ≤ (payload 0x58 0x32 0x00 0x32).length ∧
    { tiny with evq := queue 2 }.evq.length + (padEvents { tiny with evq := queue 2 } (payload 0x58 0x32 0x00 0x32)).length =
      tiny.cfg.evqCap ∧
    tiny.cfg.evqCap < { tiny with evq := queue 3 }.evq.length +
      (padEvents { tiny with evq := queue 3 } (payload 0x58 0x32 0x00 0x32)).length := by decide +kernel
/-- PadVelocityIsInRange and ReportsAppendFewEvents: a press just over the threshold (velocity 32) and a release. -/
theorem test_meets_velocity : ∃ t, exec (.rptPad (payload 0x01 0x32 0x00 0x32)) tiny = .next t ∧
    t.evq = [.padChange 3 0x20 false, .padChange 3 0x00 false] := next_of_shown (by decide +kernel)
theorem test_meets_few : ∃ t, exec (.rptBtn [0x01, 0, 0, 0, 0x0F]) tiny = .next t ∧ t.evq.length = 2 :=
  next_of_shown (by decide +kernel)
/-- OtherReportsAreIgnored: an empty report and tags next to the routed ones. -/
theorem test_meets_ignored : Ready (acting (.deliver (.report [])) tiny) (.report []) [] ∧
    Ready (acting (.deliver (.report [0x21, 0xAA])) tiny) (.report [0x21, 0xAA]) [] ∧
    ∀ tag ∈ ([0x21, 0xAA] : List Byte).head?, tag ≠ 0x01 ∧ tag ≠ 0x20 := by decide +kernel
/-- PopEventFollowsItsRule: an empty queue and one with an event. -/
theorem test_meets_pop : tiny.evq = [] ∧ { tiny with evq := queue 1 }.evq = .padChange 2 0x20 false :: [] := by
  decide +kernel

/-- FaultRecordsFollowTheTable: the largest numbers that fit. -/
theorem test_meets_records : BlockFault.record (.overrun 4294967295) = [0x11, 0xFF, 0xFF, 0xFF, 0xFF] ∧
    BlockFault.record (.geometry 65535 65535) = [0x15, 0xFF, 0xFF, 0xFF, 0xFF] := by decide +kernel
/-- FaultEntryWritesNothingElse. -/
theorem test_meets_faultEntry : ∃ t, exec (.setpxOn 0 16) tiny = .next t ∧ t.fault = 0x11 :=
  next_of_shown (by decide +kernel)
/-- FaultedBlockPerformsNoInstruction and OnlyResetLeavesTheFaultState: without and with a reset to come. -/
theorem test_meets_faulted : ¬Running { tiny with fault := 0x11 } ∧ { tiny with fault := 0x11 }.env.resetLine = false ∧
    (∀ n, HostAction.assertReset n ∉ (acting .tick tiny).env.input) ∧
    { tiny with env := { tiny.env with input := [.tick, .assertReset 3, .drain] } }.env.input =
      [.tick] ++ HostAction.assertReset 3 :: [.drain] ∧ ∀ n, HostAction.assertReset n ∉ [HostAction.tick] :=
  ⟨by decide +kernel, rfl, by simp [acting], rfl, by simp⟩
/-- ItemDuringResetIsRejected and ResetIsPossibleAtAnyTime: an item and a release with reset asserted. -/
theorem test_meets_inReset : ∀ a ∈ [HostAction.deliver (.command []), .releaseReset],
    { tiny with env := { tiny.env with input := [a], resetLine := true } }.env.resetLine = true ∧
    { tiny with env := { tiny.env with input := [a], resetLine := true } }.env.input = a :: [] := by decide +kernel
/-- ResetIsPossibleAtAnyTime: a drain about to take its next event; nothing in progress, a fault and a stage in
progress, reset asserted. -/
theorem test_meets_resetAnyTime : Running { tiny with evq := queue 1 } ∧
    { tiny with evq := queue 1 }.env.resetLine = false ∧ { tiny with evq := queue 1 }.host.reading = none ∧
    ¬Running { sequenced .readInput (some 7) .error with fault := 0x16 } ∧
    { tiny with env := { tiny.env with resetLine := true } }.env.resetLine = true := by decide +kernel
/-- NoStagePutsResetOff: a reset one read on in a stage, and the read is made. -/
theorem test_meets_notPutOff :
    (withInput (sequenced .readInput (some 30) (.bytes [0x21])) [.assertReset 1]).env.input = .assertReset 1 :: [] ∧
    ∃ t, core.run 2 (withInput (sequenced .readInput (some 30) (.bytes [0x21])) [.assertReset 1]) = .next t ∧
      (t.env.resetLine, t.env.reads) = (true, []) := ⟨rfl, next_of_shown (by decide +kernel)⟩
/-- The whole-machine rules: an instruction that writes `FB` and `dirty`, one that clears `dirty`, one that pops. -/
theorem test_meets_dirty : (∃ t, exec .fillOn tiny = .next t ∧ (t.dirty, t.fb.length) = (true, 16)) ∧
    ∃ t, exec .clrdirty { tiny with dirty := true } = .next t ∧ t.dirty = false :=
  ⟨next_of_shown (by decide +kernel), next_of_shown (by decide +kernel)⟩
theorem test_meets_popped : ∃ t, exec .popev { tiny with evq := queue 2 } = .next t ∧ t.evq = queue 1 :=
  next_of_shown (by decide +kernel)
/-- ConfigurationNeverChanges, FaultIsClearedOnlyByReset: a step of a faulted block. -/
theorem test_meets_faultedStep : ∃ t, step { acting (.assertReset 0) tiny with fault := 0x11 } = .next t ∧ t.fault = 0x00 :=
  next_of_shown (by decide +kernel)
/-- StepKeepsTheInvariant: a state that is not the reset state, and a step from it. -/
theorem test_meets_inv : Inv { acting (.deliver (.report [0x01, 0x03, 0, 0, 0, 0])) tiny with fb := [(15, 0x01)] } ∧
    ∃ t, step { acting (.deliver (.report [0x01, 0x03, 0, 0, 0, 0])) tiny with fb := [(15, 0x01)] } = .next t ∧
      (t.btn, t.shift) = ([true, true, false, false, false], true) :=
  ⟨by decide +kernel, next_of_shown (by decide +kernel)⟩
/-- ResetGivesTheResetValues: a configured image, and one of a wrong length. -/
theorem test_meets_image :
    (State.initial { tinyConfig with initImage := some (List.replicate 16 0x5A) }).fb.read 15 = 0x5A ∧
    (State.initial { tinyConfig with initImage := some (List.replicate 17 0x5A) }).err = [[0x10, 0x03]] ∧
    (State.initial { tinyConfig with initImage := some (List.replicate 17 0x5A) }).fb = [] := by decide +kernel
/-- ConfigurationIsCheckedInOrder: each constraint failing first, at its boundary. -/
theorem test_meets_config :
    RaisesConfig { tinyConfig with height := 0 } 0x01 ∧ RaisesConfig { tinyConfig with width := 65536 } 0x02 ∧
    RaisesConfig { tinyConfig with initImage := some [] } 0x03 ∧
    RaisesConfig { tinyConfig with font := fixtureFont.drop 1 } 0x04 ∧
    RaisesConfig { tinyConfig with noneIndex := some 1 } 0x05 ∧ RaisesConfig { tinyConfig with evqCap := 0 } 0x06 ∧
    RaisesConfig { tinyConfig with padMin := 31 } 0x07 ∧ RaisesConfig { tinyConfig with advance := 0 } 0x08 := by
  decide +kernel

/-- SendFrameTickFlushes: a tick of a block with nothing dirty. -/
theorem test_meets_sendFrame : Running (acting .tick State.reset) ∧ (acting .tick State.reset).env.resetLine = false ∧
    (acting .tick State.reset).host.reading = none ∧ (acting .tick State.reset).host.phase = .sendFrame ∧
    (acting .tick State.reset).env.input = .tick :: [] ∧
    ∃ t, exec .flush (withInput (acting .tick State.reset) []) = .next t ∧ (t.fault, t.resp) = (0x00, [[0x00]]) :=
  ⟨by decide +kernel, by decide, by decide, by decide, by decide, next_of_shown (by decide +kernel)⟩
/-- OtherTicksAdvance and PhaseAdvancesOnlyOnCompletion. -/
theorem test_meets_otherTicks : ∀ phase ∈ [Phase.sendLeds, Phase.readInput],
    Running (acting .tick (sequenced phase none .error)) ∧
    (acting .tick (sequenced phase none .error)).env.resetLine = false ∧
    (acting .tick (sequenced phase none .error)).env.input = .tick :: [] := by decide +kernel
theorem test_meets_phase : ∃ t, step (acting .tick (sequenced .sendLeds none .error)) = .next t ∧
    t.host.phase = .readInput := next_of_shown (by decide +kernel)
/-- ReadStageEnds: after the last read; a read of nothing and a failed one at the last index. -/
theorem test_meets_readEnds : Reading (sequenced .readInput (some 32) .error) 32 ∧
    Reading (sequenced .readInput (some 31) (.bytes [])) 31 ∧
    nextRead (sequenced .readInput (some 31) (.bytes [])) = .bytes [] ∧
    Reading (sequenced .readInput (some 31) .error) 31 ∧
    nextRead (sequenced .readInput (some 31) .error) = .error := by decide +kernel
/-- ReadsAreDeliveredOrDropped: a pad report on an unsampled read; a button report on the same read; a pad report on a
sampled read, which is invalid. -/
theorem test_meets_dropped : Reading (sequenced .readInput (some 31) (.bytes [0x20])) 31 ∧
    nextRead (sequenced .readInput (some 31) (.bytes [0x20])) = .bytes (0x20 :: []) ∧
    31 % (sequenced .readInput (some 31) (.bytes [0x20])).cfg.padN.val ≠ 0 := by decide +kernel
theorem test_meets_delivered : Reading (sequenced .readInput (some 31) (.bytes [0x01, 1, 0, 0, 0, 0])) 31 ∧
    nextRead (sequenced .readInput (some 31) (.bytes [0x01, 1, 0, 0, 0, 0])) = .bytes (0x01 :: [1, 0, 0, 0, 0]) ∧
    ∃ t, exec (.rptBtn [1, 0, 0, 0, 0]) (readTaken (sequenced .readInput (some 31) (.bytes [0x01, 1, 0, 0, 0, 0]))) =
      .next t ∧ (t.fault, t.err) = (0x00, []) :=
  ⟨by decide +kernel, by decide +kernel, next_of_shown (by decide +kernel)⟩
theorem test_meets_invalid : Reading (sequenced .readInput (some 0) (.bytes [0x20])) 0 ∧
    0 % (sequenced .readInput (some 0) (.bytes [0x20])).cfg.padN.val = 0 ∧
    ∃ t, exec (.rptPad []) (readTaken (sequenced .readInput (some 0) (.bytes [0x20]))) = .next t ∧
      (t.fault, t.err) = (0x00, [[0x01, 0x20, 0x00, 0x00]]) :=
  ⟨by decide +kernel, by decide +kernel, next_of_shown (by decide +kernel)⟩
/-- A state about to take a drain with two events queued and then the given actions. -/
def draining (rest : List HostAction) : State := withInput { tiny with evq := queue 2 } (.drain :: rest)
/-- DrainEmptiesTheQueue: with no reset meanwhile; a reset at the last POPEV that finds the queue still draining; one
just after the drain. -/
theorem test_meets_drain : Running (draining []) ∧ (draining []).env.resetLine = false ∧
    (draining []).host.reading = none ∧ (draining []).env.input = .drain :: [] ∧
    ∃ t, core.run 3 (draining []) = .next t ∧ (t.evq, t.resp.length, t.env.input) = ([], 3, []) :=
  ⟨by decide +kernel, by decide, by decide, by decide +kernel, next_of_shown (by decide +kernel)⟩
theorem test_meets_drain_cut : Running (draining [.assertReset 2]) ∧
    (draining [.assertReset 2]).env.input = .drain :: .assertReset 2 :: [] ∧ 2 ≤ (draining [.assertReset 2]).evq.length ∧
    ∃ t, core.run 2 (draining [.assertReset 2]) = .next t ∧
      (t.evq, t.resp.length, t.env.input) = ([], 2, [.drain, .assertReset 0]) :=
  ⟨by decide +kernel, rfl, by decide +kernel, next_of_shown (by decide +kernel)⟩
theorem test_meets_drain_finished :
    (draining [.assertReset 3]).env.input = .drain :: .assertReset ((draining []).evq.length + 1 + 0) :: [] ∧
    ∃ t, core.run 3 (draining [.assertReset 3]) = .next t ∧
      (t.evq, t.resp.length, t.env.input) = ([], 3, [.assertReset 0]) :=
  ⟨by decide +kernel, next_of_shown (by decide +kernel)⟩

end Sys2Proof.Tests
end

section
/-! PROOFS. The configuration check and the state right after reset (00_scope.md R9 to R14; 70_reset_and_hazards.md
R230, R232). -/

namespace Sys2Proof.Machine

@[simp] theorem initial_cfg (cfg : Config) : (State.initial cfg).cfg = cfg := rfl
@[simp] theorem initial_fault (cfg : Config) : (State.initial cfg).fault = resetFault cfg := rfl
@[simp] theorem reset_cfg : State.reset.cfg = hardwareConfig := rfl

/-- The check of R232 finds nothing exactly when every constraint in its table holds. -/
theorem configFailure_eq_none_iff (cfg : Config) :
    configFailure cfg = none ↔ ∀ c ∈ configChecks cfg, c.2 = true := by
  simp [configFailure]

/-- Reset records no fault exactly when the configuration passes the check (R230). -/
theorem running_initial_iff (cfg : Config) : Running (State.initial cfg) ↔ configFailure cfg = none := by
  rw [Running, initial_fault, resetFault]
  cases configFailure cfg with
  | none => simp
  | some reason => simp

/-- The fixture font has one glyph of `GLYPH_W` bytes for each of the 96 printable codes (R10). -/
theorem fixtureFont_shape : fixtureFont.length = 96 ∧ ∀ g ∈ fixtureFont, g.length = glyphWidth := by
  constructor
  · rfl
  · simp [fixtureFont, glyphWidth, or_imp, forall_and]

/-- The values of R9 to R14, with the fixture values for the OPEN parameters (log 2), pass the check of R232. -/
theorem hardwareConfig_passes : configFailure hardwareConfig = none := by
  rw [configFailure_eq_none_iff]
  obtain ⟨hcount, hwidth⟩ := fixtureFont_shape
  simpa [configChecks, hardwareConfig, hcount] using hwidth

/-- `LEN` of this hardware (R9). -/
theorem frameLength_hardwareConfig : frameLength hardwareConfig = 1024 := rfl

/-- Settles O52: the parameters are fields of `hardwareConfig`, and it passes the check of reset. -/
theorem hardwareParameters : Obligations.HardwareParameters := by
  unfold Obligations.HardwareParameters
  rw [reset_cfg]
  exact ⟨rfl, rfl, frameLength_hardwareConfig, rfl, rfl, rfl, rfl, rfl,
    (running_initial_iff hardwareConfig).2 hardwareConfig_passes⟩

end Sys2Proof.Machine
end

section
/-! PROOFS. What an instruction changes and what it leaves unchanged (10_state.md R24 to R37, R60, R63): each rule is a
case analysis over `Changes`. -/

namespace Sys2Proof.Machine

/-- The writers of `FB`, named (R24). -/
theorem writesFrame_iff (i : Instr) : writesFrame i = true ↔
    i = .fillOn ∨ i = .fillOff ∨ i = .invert ∨ (∃ row, i = .invrow row) ∨ (∃ d, i = .copy d) ∨
    (∃ x y, i = .setpxOn x y ∨ i = .setpxOff x y) ∨
    (∃ c row col, i = .prcharOn c row col ∨ i = .prcharOff c row col) ∨
    ∃ row col text, i = .printOn row col text ∨ i = .printOff row col text := by
  cases i <;> simp [writesFrame]

/-- An instruction that changes `dirty` writes the frame and sets it, or is one of the two that clear it. -/
theorem Changes.dirty_ne {i : Instr} {s t : State} (h : Changes s i t) (hne : t.dirty ≠ s.dirty) :
    (t.dirty = false ∧ (i = .clrdirty ∨ i = .flush)) ∨ (t.dirty = true ∧ writesFrame i = true) := by
  cases h with
  | wrote _ m hi hm => exact .inr ⟨rfl, hi⟩
  | cleared => exact .inl ⟨rfl, .inl rfl⟩
  | sent msgs r d acks draws hd => exact .inl ⟨hd.resolve_right hne, .inr rfl⟩
  | _ => exact absurd rfl hne

/-- An instruction that changes `FB` is one of its writers and sets `dirty`. -/
theorem Changes.fb_ne {i : Instr} {s t : State} (h : Changes s i t) (hne : t.fb ≠ s.fb) :
    t.dirty = true ∧ writesFrame i = true := by
  cases h with
  | wrote _ m hi hm => exact ⟨rfl, hi⟩
  | _ => exact absurd rfl hne

/-- Only a button report writes the button decoder's state (R26 to R28). -/
theorem Changes.button_state {i : Instr} {s t : State} (h : Changes s i t) (hi : ∀ p, i ≠ .rptBtn p) :
    t.btn = s.btn ∧ t.shift = s.shift ∧ t.encLast = s.encLast ∧ t.ledreq = s.ledreq := by
  cases h with
  | buttons p evs hq => exact absurd rfl (hi p)
  | _ => exact ⟨rfl, rfl, rfl, rfl⟩

/-- Only a pad report writes the pad decoder's state (R29, R30). -/
theorem Changes.pad_state {i : Instr} {s t : State} (h : Changes s i t) (hi : ∀ p, i ≠ .rptPad p) :
    t.padAct = s.padAct ∧ t.padLast = s.padLast := by
  cases h with
  | pads p evs hq => exact absurd rfl (hi p)
  | _ => exact ⟨rfl, rfl⟩

theorem Changes.streams_prefix {i : Instr} {s t : State} (h : Changes s i t) :
    s.resp <+: t.resp ∧ s.disp <+: t.disp ∧ s.ledreq <+: t.ledreq ∧ s.err <+: t.err := by
  cases h <;> simp

theorem Changes.queue {i : Instr} {s t : State} (h : Changes s i t) :
    s.evq <+: t.evq ∨ (i = .popev ∧ ∃ e, s.evq = e :: t.evq) := by
  cases h with
  | popped e rest hq => exact .inr ⟨rfl, e, hq⟩
  | buttons p evs hq => exact .inl (List.prefix_append s.evq evs)
  | pads p evs hq => exact .inl (List.prefix_append s.evq evs)
  | _ => exact .inl List.prefix_rfl

/-- Settles O40: the writers of `FB` are the instructions that set `dirty`. -/
theorem dirtyIsWrittenOnlyByItsWriters : Obligations.DirtyIsWrittenOnlyByItsWriters := by
  intro i s t h hne
  rw [← writesFrame_iff]
  exact (changes_of_exec h).2.dirty_ne hne

/-- Settles O41: the instructions named are none of the writers. -/
theorem frameWritersSetDirty : Obligations.FrameWritersSetDirty := by
  intro i s t h hne
  obtain ⟨hd, hi⟩ := (changes_of_exec h).2.fb_ne hne
  refine ⟨hd, ?_⟩
  cases i <;> simp [writesFrame] at hi ⊢

/-- Settles O42: only an accepted report's change writes decoder state. -/
theorem decoderStateIsWrittenOnlyByReports : Obligations.DecoderStateIsWrittenOnlyByReports := by
  intro i s t h
  obtain ⟨-, hc⟩ := changes_of_exec h
  exact ⟨hc.button_state, hc.pad_state⟩

/-- Settles O43: every change keeps a stream or appends to it. -/
theorem outputStreamsOnlyGrow : Obligations.OutputStreamsOnlyGrow :=
  fun _ _ _ h => (changes_of_exec h).2.streams_prefix

/-- Settles O44: reports append, POPEV takes the head, the rest keep the queue. -/
theorem eventQueueIsFirstInFirstOut : Obligations.EventQueueIsFirstInFirstOut :=
  fun _ _ _ h => (changes_of_exec h).2.queue

/-- Settles O45: an instruction keeps the configuration, and so does a reset (R36). -/
theorem configurationNeverChanges : Obligations.ConfigurationNeverChanges := by
  intro s t h
  cases steps_of_step h with
  | item env i u t hu hr ht =>
    obtain ⟨env', host', rfl, -⟩ := ht
    exact hu.cfg_host.1
  | env env => rfl
  | reset rest => rfl

/-- Settles O46: no item is performed with a fault recorded (R196). -/
theorem faultIsClearedOnlyByReset : Obligations.FaultIsClearedOnlyByReset := by
  intro s t h hf
  cases steps_of_step h with
  | item env i u t hu hr ht => exact absurd hr hf
  | env env => exact .inl rfl
  | reset rest => exact .inr ⟨rest, rfl⟩

end Sys2Proof.Machine
end

section
/-! PROOFS. The values a reset gives (10_state.md R22, R23; 70_reset_and_hazards.md R230, R231). -/

namespace Sys2Proof.Machine

/-- An image whose length is right does not fail the check for its length (R232). -/
theorem configFailure_ne_image {cfg : Config} {image : List Byte} (hi : cfg.initImage = some image)
    (hlen : image.length = frameLength cfg) : configFailure cfg ≠ some 0x03#8 := by
  intro h
  obtain ⟨c, hfind, hc⟩ := Option.map_eq_some_iff.1 h
  have hfails := List.find?_some hfind
  have hmem := List.mem_of_find?_eq_some hfind
  simp only [configChecks, List.mem_cons, List.not_mem_nil, or_false] at hmem
  rcases hmem with rfl | rfl | rfl | rfl | rfl | rfl | rfl | rfl
  case inr.inr.inl => simp [hi, hlen] at hfails
  all_goals simp at hc

theorem read_resetFrame_image {cfg : Config} {image : List Byte} (hi : cfg.initImage = some image)
    (hlen : image.length = frameLength cfg) (a : Nat) : (resetFrame cfg).read a = image.getD a 0x00 := by
  simp [resetFrame, hi, hlen, Memory.read_ofBytes, unlistedByte]

theorem resetFrame_of_noImage {cfg : Config} (hi : cfg.initImage = none) : resetFrame cfg = [] := by
  simp [resetFrame, hi]

theorem resetFrame_of_badImage {cfg : Config} (h : configFailure cfg = some 0x03#8) : resetFrame cfg = [] := by
  unfold resetFrame
  split
  · rfl
  · next image hi => rw [if_neg fun hlen => configFailure_ne_image hi hlen h, if_pos h]

/-- The reset values of R22, whatever is still to come from outside. -/
theorem resetValues_initial (cfg : Config) (env : Environment) :
    ResetValues cfg { State.initial cfg with env := env } where
  cfg_eq := rfl
  dirty := rfl
  btn := rfl
  shift := rfl
  encLast := rfl
  padAct q := Vector.getElem_replicate q.isLt
  padLast q := Vector.getElem_replicate q.isLt
  evq := rfl
  resp := rfl
  disp := rfl
  ledreq := rfl
  phase := rfl
  passed h := by simp [State.initial, resetFault, resetErrors, h]
  failed reason h := by simp [State.initial, resetFault, resetErrors, h]
  image bytes hi hlen a _ := read_resetFrame_image hi hlen a
  noImage hi a := congrArg (Memory.read · a) (resetFrame_of_noImage hi)
  badImage h a := congrArg (Memory.read · a) (resetFrame_of_badImage h)

/-- Settles O49: both states are the initial one but for the environment. -/
theorem resetGivesTheResetValues : Obligations.ResetGivesTheResetValues :=
  ⟨fun cfg => resetValues_initial cfg _, fun s _ => resetValues_initial s.cfg _⟩

end Sys2Proof.Machine
end

section
/-! PROOFS. Every step keeps the invariant of the machine (10_state.md R23, R26, R27, R30, R31, R35; R217): each part
is kept by every change of an instruction, the sequencer's by every move, and a reset sets all of them anew. -/

namespace Sys2Proof.Machine

/-! ## The report decoders' scans -/

@[simp] theorem length_buttonsAfter (s : State) (p : List Byte) :
    (buttonsAfter s p).length = s.cfg.buttonCount := by
  simp [buttonsAfter]

/-- The latch of a button after a report; an index past the last button reads as 0. -/
theorem getD_buttonsAfter (s : State) (p : List Byte) (i : Nat) : (buttonsAfter s p).getD i false =
    if i < s.cfg.buttonCount then
      if s.cfg.noneIndex = some i then s.btn.getD i false else buttonLevel p i
    else false := by
  by_cases h : i < s.cfg.buttonCount
  · simp [buttonsAfter, List.getD_eq_getElem?_getD, h]
  · simp [buttonsAfter, List.getD_eq_getElem?_getD, h]

/-- The button scan keeps one latch a button, leaves the sentinel's and takes the shift flag from its latch. -/
theorem buttonInv_buttonsAfter {s t : State} {p : List Byte} (hb : ButtonInv s) (hc : configFailure s.cfg = none)
    (hcfg : t.cfg = s.cfg) (hbtn : t.btn = buttonsAfter s p)
    (hshift : t.shift = buttonLevel p s.cfg.shiftIndex) : ButtonInv t := by
  obtain ⟨-, -, hnone⟩ := hb
  obtain ⟨-, hlt, hne⟩ := buttons_of_config hc
  rw [ButtonInv, hcfg, hbtn, hshift]
  refine ⟨length_buttonsAfter s p, ?_, ?_⟩
  · rw [getD_buttonsAfter, if_pos hlt, if_neg hne]
  · cases hn : s.cfg.noneIndex with
    | none => rfl
    | some n =>
      rw [hn] at hnone
      simp only [Option.all_some, getD_buttonsAfter, hn, if_true] at hnone ⊢
      split
      · exact hnone
      · rfl

/-- Before every sample a pad is active exactly when its stored value is over the threshold (R160, R162). -/
theorem latchBefore_eq_decide {s : State} (hp : PadInv s) (p : List Byte) (n : Nat) (q : Fin 16) :
    latchBefore s p n (BitVec.ofFin q) =
      decide (s.cfg.padThr < (valueBefore s p n (BitVec.ofFin q)).toNat) := by
  unfold latchBefore valueBefore
  cases lastSample p n (BitVec.ofFin q) with
  | none => exact hp q
  | some k => rfl

/-! ## The parts of the invariant, for a change of an instruction -/

section
variable {i : Instr} {s t : State}

theorem Changes.frameInv (h : Changes s i t) (hc : configFailure s.cfg = none) (hf : FrameInv s) :
    FrameInv t := by
  cases h with
  | wrote _ m hi hm => exact hm hf hc
  | _ => exact hf

theorem Changes.buttonInv (h : Changes s i t) (hc : configFailure s.cfg = none) (hb : ButtonInv s) :
    ButtonInv t := by
  cases h with
  | buttons p evs hq =>
    obtain ⟨hbtn, hshift, -, -⟩ := scanButtons_spec s p hb hc
    exact buttonInv_buttonsAfter hb hc rfl hbtn hshift
  | _ => exact hb

theorem Changes.padInv (h : Changes s i t) (hp : PadInv s) : PadInv t := by
  cases h with
  | pads p evs hq =>
    obtain ⟨hact, hlast, -⟩ := scanSamples_spec s p
    intro q
    simpa [hact, hlast] using latchBefore_eq_decide hp p 16 q
  | _ => exact hp

theorem Changes.queueInv (h : Changes s i t) (hq : QueueInv s) : QueueInv t := by
  cases h with
  | popped e rest hcons =>
    have hlen : rest.length + 1 ≤ s.cfg.evqCap := by simpa [QueueInv, hcons] using hq
    exact Nat.le_of_succ_le hlen
  | buttons p evs hle => simpa [QueueInv] using hle
  | pads p evs hle => simpa [QueueInv] using hle
  | _ => exact hq

theorem Changes.faultInv (h : Changes s i t) (hf : FaultInv s) : FaultInv t := by
  cases h with
  | raised _ f => exact ⟨f.code_mem, fun h0 => absurd h0 f.code_ne_zero⟩
  | _ => exact hf

/-- A read index moves on only below the stage's last read, and starts only in ReadInput (R217). -/
theorem SequencerMoves.sequencerInv (h : SequencerMoves s.host t.host) (hs : SequencerInv s) :
    SequencerInv t := by
  unfold SequencerInv
  rcases h with h | ⟨k, hk, hlt, h⟩ | ⟨r, h⟩ | ⟨hphase, h⟩
  · rw [h]; exact hs
  · have hphase := hs.2 (by simp [hk])
    simp only [h, readsPerTick]
    exact ⟨by simpa using hlt, fun _ => hphase⟩
  · simp [h]
  · simp [h, hphase]

end

/-! ## Steps -/

/-- The state right after reset meets the invariant, whatever the configuration (R230). -/
theorem inv_initial (cfg : Config) : Inv (State.initial cfg) := by
  refine ⟨resetFrame_spec cfg, ?_, fun q => ?_, Nat.zero_le _, ⟨?_, (running_initial_iff cfg).1⟩, ?_⟩
  · cases hn : cfg.noneIndex <;> simp [ButtonInv, State.initial, hn]
  · simp [State.initial]
  · rw [initial_fault, resetFault]
    cases configFailure cfg <;> simp [faultCodes]
  · simp [SequencerInv, State.initial]

/-- The invariant says nothing of what is still to come from outside. -/
theorem inv_performReset (rest : List HostAction) (s : State) : Inv (performReset rest s) :=
  inv_initial s.cfg

/-- An instruction on a running block followed by a move of the sequencer keeps the invariant. -/
theorem inv_of_changes {i : Instr} {s u t : State} (hu : Changes s i u) (hr : Running s) (hs : Inv s)
    (ht : ∃ env host, t = { u with env := env, host := host } ∧ SequencerMoves s.host host) : Inv t := by
  obtain ⟨hframe, hbutton, hpad, hqueue, hfault, hseq⟩ := hs
  obtain ⟨env, host, rfl, hmove⟩ := ht
  have hc := hfault.2 hr
  exact ⟨hu.frameInv hc hframe, hu.buttonInv hc hbutton, hu.padInv hpad, hu.queueInv hqueue,
    hu.faultInv hfault, hmove.sequencerInv hseq⟩

/-- Settles O47, by the inversion of a step. -/
theorem stepKeepsTheInvariant : Obligations.StepKeepsTheInvariant := by
  intro s t hs h
  cases steps_of_step h with
  | item env i u t hu hr ht => exact inv_of_changes hu hr hs ht
  | env env => exact hs
  | reset rest => exact inv_performReset rest s

end Sys2Proof.Machine
end

section
/-! PROOFS. Complementing a stretch of the framebuffer (20_memory.md R58; 40_canvas.md R105), and an item taken by a
step (R59, R70). -/

namespace Sys2Proof.Machine

/-! ## Complementing -/

/-- The memory with the `n` bytes from address `a` complemented: what INVROW does to `FB` (R105). -/
def Memory.complement (m : Memory) (a n : Nat) : Memory := m.writeBytes a ((m.slice a n).map (~~~ ·))

theorem Memory.wf_complement {m : Memory} (hm : m.wf) (a n : Nat) : (m.complement a n).wf :=
  Memory.wf_writeBytes hm _ _

/-- Complementing changes exactly the bytes of its range. -/
theorem Memory.read_complement {m : Memory} (hm : m.wf) (a n b : Nat) :
    (m.complement a n).read b = if a ≤ b ∧ b < a + n then ~~~(m.read b) else m.read b := by
  rw [Memory.complement, Memory.read_writeBytes hm, List.length_map, Memory.length_slice]
  refine ite_congr rfl (fun h => ?_) fun _ => rfl
  rw [show unlistedByte = ~~~0xFF#8 from rfl, List.getD_map,
    Memory.getD_slice _ _ _ _ _ (by omega : b - a < n), Nat.add_sub_cancel' h.1]

/-- Complementing a range twice gives the same data back, since the canonical form is unique. -/
theorem Memory.complement_complement {m : Memory} (hm : m.wf) (a n : Nat) :
    (m.complement a n).complement a n = m := by
  have hc := Memory.wf_complement hm a n
  refine Memory.ext (Memory.wf_complement hc a n) hm fun b => ?_
  rw [Memory.read_complement hc, Memory.read_complement hm]
  by_cases h : a ≤ b ∧ b < a + n
  · simp only [if_pos h, BitVec.not_not]
  · simp only [if_neg h]

/-! ## Row groups -/

/-- A row group that starts inside the buffer is complemented (R105). -/
theorem invertRow_of_lt {row : Nat} {s : State} (h : row * s.cfg.width < frameLength s.cfg) :
    invertRow row s = writeFrame (s.fb.complement (row * s.cfg.width) s.cfg.width) s := by
  rcases invertRow_cases row s with ⟨hle, -⟩ | ⟨-, heq⟩
  · exact absurd h (Nat.not_lt.2 hle)
  · exact heq

/-- Two INVROWs on one row group leave only `dirty` set: the second finds the same row group and undoes the first. -/
theorem invertRow_invertRow {row : Nat} {s : State} (hfb : s.fb.wf)
    (h : row * s.cfg.width < frameLength s.cfg) :
    invertRow row (invertRow row s) = { s with dirty := true } := by
  rw [invertRow_of_lt h, invertRow_of_lt (by simpa using h), writeFrame_cfg, writeFrame_fb,
    Memory.complement_complement hfb]
  rfl

/-- Settles O16: complementing is an involution on canonical memories. -/
theorem invertRowTwiceRestores : Obligations.InvertRowTwiceRestores := by
  intro s row hr hf h
  have hr' : Running (invertRow row.toNat s) := by rw [invertRow_of_lt h]; exact hr
  refine ⟨invertRow row.toNat s, exec_of_running hr _, ?_⟩
  rw [exec_of_running hr']
  exact congrArg Host.Outcome.next (invertRow_invertRow hf.1 h)

/-! ## Items -/

/-- An item that decodes is performed as its instruction (R70). -/
theorem performItem_of_ok {item : Item} {i : Instr} (h : decodeItem item = .ok i) (s : State) :
    performItem item s = exec i s := by
  rw [performItem, h]

/-- Settles O6: the step of a ready item performs it in the state with the item taken. -/
theorem stepPerformsTheDecodedItem : Obligations.StepPerformsTheDecodedItem := by
  intro s item rest i hready hdecode
  rw [step_of_ready hready, performItem_of_ok hdecode]

end Sys2Proof.Machine
end

section
/-! PROOFS. Encoding and decoding (30_encoding.md R72 to R80): what each command format reads, said once as an
equivalence, then the opcode map and the round trip in both directions. -/

namespace Sys2Proof

/-! ## Count fields -/

/-- The first byte of a `CB` command's count is the low byte of its u16 field (R72, R73). -/
theorem ofNat_toNat_u16 (a b : Byte) : BitVec.ofNat 8 (u16 a b).toNat = a := by
  apply BitVec.eq_of_toNat_eq
  rw [toNat_u16, BitVec.toNat_ofNat]
  omega

/-- The second byte of a `CB` command's count is the high byte of its u16 field (R72, R73). -/
theorem ofNat_toNat_u16_div (a b : Byte) : BitVec.ofNat 8 ((u16 a b).toNat / 256) = b := by
  apply BitVec.eq_of_toNat_eq
  rw [toNat_u16, BitVec.toNat_ofNat]
  omega

/-- The count bytes of a `CB` command read as the count they were written from. -/
theorem toNat_u16_count {n : Nat} (h : n < 65536) :
    (u16 (BitVec.ofNat 8 n) (BitVec.ofNat 8 (n / 256))).toNat = n := by
  rw [toNat_u16, BitVec.toNat_ofNat, BitVec.toNat_ofNat]
  omega

/-! ## The six formats -/

section Formats
variable {body : List Byte} {i : Instr}

theorem decodeC1_eq_some {j : Instr} : decodeC1 j body = some i ↔ body = [] ∧ j = i := by
  cases body <;> simp [decodeC1]

theorem decodeCXY_eq_some {mk : U16 → U16 → Instr} : decodeCXY mk body = some i ↔
    ∃ x y, body = [lowByte x, highByte x, lowByte y, highByte y] ∧ mk x y = i := by
  constructor
  · intro h
    unfold decodeCXY at h
    split at h
    · exact ⟨_, _, by simp only [lowByte_u16, highByte_u16], Option.some.inj h⟩
    · cases h
  · rintro ⟨x, y, rfl, rfl⟩
    simp only [decodeCXY, u16_low_high]

theorem decodeCR_eq_some {mk : U16 → Instr} : decodeCR mk body = some i ↔
    ∃ r, body = [lowByte r, highByte r] ∧ mk r = i := by
  constructor
  · intro h
    unfold decodeCR at h
    split at h
    · exact ⟨_, by simp only [lowByte_u16, highByte_u16], Option.some.inj h⟩
    · cases h
  · rintro ⟨r, rfl, rfl⟩
    simp only [decodeCR, u16_low_high]

theorem decodeCG_eq_some {mk : Byte → U16 → U16 → Instr} : decodeCG mk body = some i ↔
    ∃ c row col, body = [c, lowByte row, highByte row, lowByte col, highByte col] ∧ mk c row col = i := by
  constructor
  · intro h
    unfold decodeCG at h
    split at h
    · exact ⟨_, _, _, by simp only [lowByte_u16, highByte_u16], Option.some.inj h⟩
    · cases h
  · rintro ⟨c, row, col, rfl, rfl⟩
    simp only [decodeCG, u16_low_high]

theorem decodeCT_eq_some {mk : U16 → U16 → List Byte → Instr} : decodeCT mk body = some i ↔
    ∃ row col text, text.length < 256 ∧ body = lowByte row :: highByte row :: lowByte col :: highByte col ::
      BitVec.ofNat 8 text.length :: text ∧ mk row col text = i := by
  constructor
  · intro h
    unfold decodeCT at h
    split at h
    · next r0 r1 c0 c1 n text =>
      split at h
      · next hn =>
        refine ⟨u16 r0 r1, u16 c0 c1, text, hn ▸ n.isLt, ?_, Option.some.inj h⟩
        simp only [lowByte_u16, highByte_u16, hn, BitVec.ofNat_toNat, BitVec.setWidth_eq]
      · cases h
    · cases h
  · rintro ⟨row, col, text, hlt, rfl, rfl⟩
    simp only [decodeCT, u16_low_high, BitVec.toNat_ofNat, Nat.mod_eq_of_lt hlt, if_true]

theorem decodeCB_eq_some {mk : List Byte → Instr} : decodeCB mk body = some i ↔
    ∃ data, data.length < 65536 ∧
      body = BitVec.ofNat 8 data.length :: BitVec.ofNat 8 (data.length / 256) :: data ∧ mk data = i := by
  constructor
  · intro h
    unfold decodeCB at h
    split at h
    · next n0 n1 data =>
      split at h
      · next hn =>
        refine ⟨data, hn ▸ (u16 n0 n1).isLt, ?_, Option.some.inj h⟩
        rw [hn, ofNat_toNat_u16, ofNat_toNat_u16_div]
      · cases h
    · cases h
  · rintro ⟨data, hlt, rfl, rfl⟩
    simp only [decodeCB, toNat_u16_count hlt, if_true]

end Formats

/-! ## The opcode map and the report tags -/

theorem decodeItem_command_eq_ok {op : Byte} {body : List Byte} {i : Instr} :
    decodeItem (.command (op :: body)) = .ok i ↔ decodeRow op body = some (some i) := by
  simp only [decodeItem, decodeCommand]
  split
  · next h => simp [h]
  · next h => simp [h]
  · next j h => simp [h]

/-- A row of the opcode map reads only encodings of well-formed instructions. -/
theorem encode_of_decodeRow {op : Byte} {body : List Byte} {i : Instr} (h : decodeRow op body = some (some i)) :
    i.wellFormed = true ∧ encode i = .command (op :: body) := by
  unfold decodeRow at h
  split at h
  case h_17 => cases h
  all_goals replace h := Option.some.inj h
  case h_1 | h_2 | h_3 => obtain ⟨x, y, rfl, rfl⟩ := decodeCXY_eq_some.1 h; exact ⟨rfl, rfl⟩
  case h_4 | h_5 | h_6 | h_8 | h_14 | h_15 | h_16 => obtain ⟨rfl, rfl⟩ := decodeC1_eq_some.1 h; exact ⟨rfl, rfl⟩
  case h_7 => obtain ⟨row, rfl, rfl⟩ := decodeCR_eq_some.1 h; exact ⟨rfl, rfl⟩
  case h_9 => obtain ⟨data, hlt, rfl, rfl⟩ := decodeCB_eq_some.1 h; exact ⟨decide_eq_true hlt, rfl⟩
  case h_10 | h_11 => obtain ⟨c, row, col, rfl, rfl⟩ := decodeCG_eq_some.1 h; exact ⟨rfl, rfl⟩
  case h_12 | h_13 =>
    obtain ⟨row, col, text, hlt, rfl, rfl⟩ := decodeCT_eq_some.1 h
    exact ⟨decide_eq_true hlt, rfl⟩

/-- A report is the encoding of what it routes to, which is well-formed (R79, R80). -/
theorem encode_decodeReport (bytes : List Byte) :
    (decodeReport bytes).wellFormed = true ∧ encode (decodeReport bytes) = .report bytes := by
  cases bytes with
  | nil => exact ⟨rfl, rfl⟩
  | cons tag payload =>
    simp only [decodeReport]
    split
    · exact ⟨rfl, rfl⟩
    · exact ⟨rfl, rfl⟩
    · next hbtn hpad => exact ⟨by simpa [Instr.wellFormed] using ⟨hbtn, hpad⟩, rfl⟩

/-! ## The round trip -/

/-- Settles O1: each constructor's bytes are read back by the format of its row, or by the route of its tag. -/
theorem decodeAfterEncodeIsIdentity : Obligations.DecodeAfterEncodeIsIdentity := by
  intro i hi
  cases i with
  | setpxOff x y | setpxOn x y | getpx x y =>
    refine decodeItem_command_eq_ok.2 ?_
    exact congrArg some (decodeCXY_eq_some.2 ⟨x, y, rfl, rfl⟩)
  | fillOff | fillOn | invert | clrdirty | flush | rdstat | popev => rfl
  | invrow row =>
    refine decodeItem_command_eq_ok.2 ?_
    exact congrArg some (decodeCR_eq_some.2 ⟨row, rfl, rfl⟩)
  | copy data =>
    refine decodeItem_command_eq_ok.2 ?_
    exact congrArg some (decodeCB_eq_some.2 ⟨data, of_decide_eq_true hi, rfl, rfl⟩)
  | prcharOff c row col | prcharOn c row col =>
    refine decodeItem_command_eq_ok.2 ?_
    exact congrArg some (decodeCG_eq_some.2 ⟨c, row, col, rfl, rfl⟩)
  | printOff row col text | printOn row col text =>
    refine decodeItem_command_eq_ok.2 ?_
    exact congrArg some (decodeCT_eq_some.2 ⟨row, col, text, of_decide_eq_true hi, rfl, rfl⟩)
  | rptBtn payload | rptPad payload => rfl
  | rptIgnored report => exact congrArg Except.ok (Laws.CommandLength.rptIgnored report hi)

/-- Settles O2: the converse, for a command by its row and for a report by its tag. -/
theorem decodedItemsAreEncodings : Obligations.DecodedItemsAreEncodings := by
  intro item i h
  match item with
  | .command [] => cases h
  | .command (op :: body) => exact encode_of_decodeRow (decodeItem_command_eq_ok.1 h)
  | .report bytes => cases h; exact encode_decodeReport bytes

/-- Settles O3: the words are fixed, and the decoder computes on them. -/
theorem sampleWordsDecode : Obligations.SampleWordsDecode :=
  ⟨rfl, rfl, rfl, rfl, rfl, rfl, rfl⟩

end Sys2Proof
end

section
/-! PROOFS. Commands that do not decode (30_encoding.md R76, R77): which they are, and the fault the step raises. -/

namespace Sys2Proof.Machine

/-- A reserved opcode has no format (R74, R76). -/
theorem opcodeFormat_of_reserved {op : Byte} (h : op ∉ definedOpcodes) : opcodeFormat op = none := by
  unfold opcodeFormat
  split <;> simp_all [definedOpcodes]

/-- An opcode whose length R75 tells is a defined one. -/
theorem mem_definedOpcodes_of_commandLength {byteAt : Nat → Byte} {n : Nat} (h : commandLength byteAt = some n) :
    byteAt 0 ∈ definedOpcodes := by
  by_contra hop
  simp [commandLength, opcodeFormat_of_reserved hop] at h

open Laws.CommandLength in
/-- Every instruction's bytes tell its own length, or route to it. -/
theorem commandLength_encode : ∀ i : Instr, Laws.CommandLength.Statement i
  | .setpxOff x y => setpxOff x y
  | .setpxOn x y => setpxOn x y
  | .getpx x y => getpx x y
  | .fillOff => fillOff
  | .fillOn => fillOn
  | .invert => invert
  | .invrow row => invrow row
  | .clrdirty => clrdirty
  | .copy data => copy data
  | .prcharOff c row col => prcharOff c row col
  | .prcharOn c row col => prcharOn c row col
  | .printOff row col text => printOff row col text
  | .printOn row col text => printOn row col text
  | .flush => flush
  | .rdstat => rdstat
  | .popev => popev
  | .rptBtn payload => rptBtn payload
  | .rptPad payload => rptPad payload
  | .rptIgnored report => rptIgnored report

/-- The bytes of a command that decodes tell its own length (R75). -/
theorem commandLength_of_decodeItem {bytes : List Byte} {i : Instr} (h : decodeItem (.command bytes) = .ok i) :
    commandLength (fun k => bytes.getD k 0x00) = some bytes.length := by
  obtain ⟨hwf, henc⟩ := decodedItemsAreEncodings _ _ h
  have hlen := commandLength_encode i hwf
  rwa [henc] at hlen

theorem decodeItem_of_reserved {op : Byte} (hop : op ∉ definedOpcodes) (body : List Byte) :
    decodeItem (.command (op :: body)) = .error (.illegal op) := by
  rcases decodeRow_cases op body with ⟨-, h⟩ | ⟨hdef, -⟩
  · simp only [decodeItem, decodeCommand, h]
  · exact absurd hdef hop

/-- A command of a defined opcode that does not have its own length is malformed (R77). -/
theorem decodeItem_of_wrongLength {op : Byte} {body : List Byte} {n : Nat}
    (hn : commandLength (fun k => (op :: body).getD k 0x00) = some n) (hne : body.length + 1 ≠ n) :
    decodeItem (.command (op :: body)) = .error (.malformed op (body.length + 1)) := by
  rcases decodeRow_cases op body with ⟨hop, -⟩ | ⟨-, o, hrow⟩
  · exact absurd (mem_definedOpcodes_of_commandLength hn) hop
  · cases o with
    | none => simp only [decodeItem, decodeCommand, hrow]
    | some i =>
      have hlen := commandLength_of_decodeItem (decodeItem_command_eq_ok.2 hrow)
      exact absurd (Option.some.inj (hlen.symm.trans hn)) hne

/-- The step that takes a ready item which does not decode raises its fault and writes nothing else (R195). -/
theorem step_of_undecodable {s : State} {item : Item} {rest : List HostAction} {e : DecodeError}
    (hready : Ready s item rest) (he : decodeItem item = .error e) :
    step s = .next (faulted (withInput s rest) (decodeFault e).code (decodeFault e).info) := by
  have hrun : Running (withInput s rest) := hready.1
  simp only [step_of_ready hready, performItem, he, performing_of_running hrun, raise_eq_faulted]

/-- Settles O4: a reserved opcode is illegal whatever follows it. -/
theorem reservedOpcodeRaisesIllegal : Obligations.ReservedOpcodeRaisesIllegal := by
  intro s op body rest hop hready
  exact step_of_undecodable hready (decodeItem_of_reserved hop body)

/-- Settles O5: what decodes has the length its bytes tell, so any other length is malformed. -/
theorem wrongLengthRaisesMalformed : Obligations.WrongLengthRaisesMalformed := by
  refine ⟨fun s rest hready => ?_, fun s op body rest n hn hne hready => ?_⟩
  · exact step_of_undecodable hready rfl
  · exact ⟨infoField 2 (body.length + 1), shows_infoField _ _,
      step_of_undecodable hready (decodeItem_of_wrongLength hn hne)⟩

end Sys2Proof.Machine
end

section
/-! PROOFS. The byte layouts of pad samples and event records (30_encoding.md R82, R90, R94). -/

namespace Sys2Proof.Machine

/-! ## Pad samples -/

/-- The high nibble of an assembled sample's second byte is the pad index. -/
theorem pad_of_sampleByte (pad : BitVec 4) (value : BitVec 12) :
    ((((pad.setWidth 8 <<< 4) ||| (value >>> 8).setWidth 8) : Byte) >>> 4).setWidth 4 = pad := by
  ext k hk
  have hhigh : value.getLsbD (8 + (4 + k)) = false := BitVec.getLsbD_of_ge _ _ (by omega)
  simp [hk, hhigh, show 4 + k < 8 by omega, show k < 8 by omega]

/-- The low nibble of an assembled sample's second byte over its first byte is the value. -/
theorem value_of_sampleBytes (pad : BitVec 4) (value : BitVec 12) :
    ((((pad.setWidth 8 <<< 4) ||| (value >>> 8).setWidth 8 : Byte) &&& 0x0F#8).setWidth 12 <<< 8) |||
      (value.setWidth 8 : Byte).setWidth 12 = value := by
  ext k hk
  by_cases hlow : k < 8
  · simp [hlow, BitVec.getLsbD_eq_getElem hk]
  · interval_cases k <;> simp

/-- Where the bytes of a list of byte pairs stand. -/
theorem getD_flatMap_pair {α β : Type} (f g : α → β) (tail : List β) (d : β) (xs : List α) (j : Nat)
    (hj : j < xs.length) :
    ((xs.flatMap fun x => [f x, g x]) ++ tail).getD (2 * j) d = f xs[j] ∧
    ((xs.flatMap fun x => [f x, g x]) ++ tail).getD (2 * j + 1) d = g xs[j] := by
  induction xs generalizing j with
  | nil => simp at hj
  | cons x xs ih =>
    cases j with
    | zero => exact ⟨rfl, rfl⟩
    | succ j => exact ih j (Nat.lt_of_succ_lt_succ hj)

/-- A payload that begins with `n` encoded samples shows them (R82). -/
theorem sample_encodeSample (pads : Nat → BitVec 4) (values : Nat → BitVec 12) (tail : List Byte) {n j : Nat}
    (hj : j < n) :
    samplePad (((List.range n).flatMap fun j => encodeSample (pads j) (values j)) ++ tail) j = pads j ∧
    sampleValue (((List.range n).flatMap fun j => encodeSample (pads j) (values j)) ++ tail) j = values j := by
  obtain ⟨hlow, hhigh⟩ := getD_flatMap_pair (fun j => ((values j).setWidth 8 : Byte))
    (fun j => ((pads j).setWidth 8 <<< 4) ||| (values j >>> 8).setWidth 8) tail 0x00 (List.range n) j
    (by rwa [List.length_range])
  simp only [samplePad, sampleValue, encodeSample, hlow, hhigh, List.getElem_range, pad_of_sampleByte,
    value_of_sampleBytes, and_self]

/-- Settles O7: the payload is 16 encoded samples of two bytes, then the fill. -/
theorem assembledPadReportHoldsItsSamples : Obligations.AssembledPadReportHoldsItsSamples := by
  intro padMin values hmin
  refine ⟨_, rfl, ?_, fun j hj => sample_encodeSample _ _ _ hj⟩
  simpa [encodeSample] using Nat.add_sub_of_le hmin

/-! ## Event records -/

/-- Settles O34: a button or pad index is written into a byte without loss. -/
theorem eventRecordsFollowTheirLayout : Obligations.EventRecordsFollowTheirLayout := by
  refine ⟨fun button pressed shift => ?_, fun index d shift => ?_, fun pad v shift => ?_⟩
  · rw [BitVec.ofNat_toNat]; rfl
  · cases d <;> rfl
  · rw [BitVec.ofNat_toNat]; rfl

end Sys2Proof.Machine
end

section
/-! PROOFS. Draining the event queue (30_encoding.md R95; 70_reset_and_hazards.md R220, R230): one POPEV a step, cut
short by a reset that waits for one of them. -/

namespace Sys2Proof.Machine

/-- A run that answers a next state goes on with that state's step. -/
theorem run_succ_of_next {M : Host.Core} {n : Nat} {s t : M.State} (h : M.run n s = .next t) :
    M.run (n + 1) s = M.step t := by
  induction n generalizing s with
  | zero =>
    cases h
    rw [Host.Core.run]
    cases M.step t <;> rfl
  | succ n ih =>
    rw [Host.Core.run] at h ⊢
    split at h
    · exact ih h
    · cases h
    · cases h

/-! ## One POPEV of a drain -/

/-- A running block whose next action is a drain, with the given actions behind it. -/
def Draining (s : State) (rest : List HostAction) : Prop :=
  Running s ∧ s.env.resetLine = false ∧ s.host.reading = none ∧ s.env.input = .drain :: rest

/-- The state after `n` POPEVs have answered the oldest `n` events, with the given actions still to come. -/
def drained (s : State) (n : Nat) (input : List HostAction) : State :=
  { withInput s input with evq := s.evq.drop n, resp := s.resp ++ (s.evq.take n).map Event.encode }

/-- The state a finished drain leaves: every event answered, then the `0x00` of the empty queue. -/
def drainedAll (s : State) (input : List HostAction) : State :=
  { withInput s input with evq := [], resp := s.resp ++ s.evq.map Event.encode ++ [[0x00]] }

/-- A drain makes its next POPEV, unless a reset comes before it (R220, R230). -/
theorem step_of_draining {s : State} {rest : List HostAction} (h : Draining s rest) :
    step s = underway stepDrain (withInput s rest) := by
  obtain ⟨hrun, hline, hread, hin⟩ := h
  rw [step_of_released hline, if_pos hrun]
  simp only [stepRunning, hread, hin, stepAction, withInput]

/-- A drain under way is still the next action. -/
theorem Draining.draining_drained {s : State} {rest : List HostAction} (h : Draining s rest) (n : Nat)
    (rest' : List HostAction) : Draining (drained s n (.drain :: rest')) rest' := by
  obtain ⟨hrun, hline, hread, -⟩ := h
  exact ⟨hrun, hline, hread, rfl⟩

theorem Draining.running_drained {s : State} {rest : List HostAction} (h : Draining s rest) {n : Nat}
    {input : List HostAction} : Running (drained s n input) := h.1

theorem drained_zero {s : State} {rest : List HostAction} (h : Draining s rest) :
    drained s 0 (.drain :: rest) = s := by
  obtain ⟨-, -, -, hin⟩ := h
  simp [drained, withInput, ← hin]

/-- A reset that waits no longer is the step (R230). -/
theorem step_of_draining_reset {s : State} {rest : List HostAction} (h : Draining s (.assertReset 0 :: rest)) :
    step s = .next (performReset rest s) := by
  rw [step_of_draining h]; rfl

/-- A POPEV of a drain that finds an event answers it and leaves the drain to come. -/
theorem stepDrain_of_cons {s : State} {e : Event} {q : List Event} (hrun : Running s) (hq : s.evq = e :: q) :
    stepDrain s = .next { withInput s (.drain :: s.env.input) with evq := q, resp := s.resp ++ [e.encode] } := by
  simp only [stepDrain, exec_of_running hrun, effect, popEvent, hq, andThen, emitResp, withInput,
    List.cons_ne_nil, if_false]

/-- A POPEV of a drain that finds the queue empty answers `0x00` and ends the drain. -/
theorem stepDrain_of_nil {s : State} (hrun : Running s) (hq : s.evq = []) :
    stepDrain s = .next (emitResp [0x00] s) := by
  simp only [stepDrain, exec_of_running hrun, effect, popEvent, hq, andThen, if_true]

/-- With no reset asserted now, a drain under way makes its next POPEV and counts it. -/
theorem step_drained {s : State} {rest rest' : List HostAction} (h : Draining s rest) (n : Nat)
    (hreset : resetIsNow rest' = false) :
    step (drained s n (.drain :: rest')) = stepDrain (drained s n (countDown rest')) := by
  rw [step_of_draining (h.draining_drained n rest')]
  exact underway_of_no_reset hreset

theorem step_drained_of_lt {s : State} {rest rest' : List HostAction} (h : Draining s rest) {n : Nat}
    (hn : n < s.evq.length) (hreset : resetIsNow rest' = false) :
    step (drained s n (.drain :: rest')) = .next (drained s (n + 1) (.drain :: countDown rest')) := by
  have hq : (drained s n (countDown rest')).evq = s.evq[n] :: s.evq.drop (n + 1) := List.drop_eq_getElem_cons hn
  have htake : (s.evq.take n).map Event.encode ++ [s.evq[n].encode] = (s.evq.take (n + 1)).map Event.encode := by
    rw [List.take_succ_eq_append_getElem hn, List.map_append, List.map_singleton]
  rw [step_drained h n hreset, stepDrain_of_cons h.running_drained hq]
  simp only [drained, withInput, List.append_assoc, htake]

theorem step_drained_length {s : State} {rest rest' : List HostAction} (h : Draining s rest)
    (hreset : resetIsNow rest' = false) :
    step (drained s s.evq.length (.drain :: rest')) = .next (drainedAll s (countDown rest')) := by
  have hq : (drained s s.evq.length (countDown rest')).evq = [] := List.drop_length
  rw [step_drained h _ hreset, stepDrain_of_nil h.running_drained hq]
  simp [drained, drainedAll, withInput, emitResp]

/-! ## The drain -/

/-- `n` POPEVs of a drain that no reset comes before. -/
theorem run_drain {s : State} {rest : List HostAction} (h : Draining s rest) {n : Nat} (hn : n ≤ s.evq.length)
    (hreset : ∀ k < n, resetIsNow (countDown^[k] rest) = false) :
    core.run n s = .next (drained s n (.drain :: countDown^[n] rest)) := by
  induction n with
  | zero => exact congrArg Host.Outcome.next (drained_zero h).symm
  | succ n ih =>
    have hrun := ih (Nat.le_of_succ_le hn) fun k hk => hreset k (Nat.lt_succ_of_lt hk)
    rw [Function.iterate_succ_apply']
    exact (run_succ_of_next hrun).trans (step_drained_of_lt h hn (hreset n (Nat.lt_succ_self n)))

/-- A drain that no reset comes before empties the queue. -/
theorem run_drain_all {s : State} {rest : List HostAction} (h : Draining s rest)
    (hreset : ∀ k ≤ s.evq.length, resetIsNow (countDown^[k] rest) = false) :
    core.run (s.evq.length + 1) s = .next (drainedAll s (countDown^[s.evq.length + 1] rest)) := by
  have hrun := run_drain h le_rfl fun k hk => hreset k hk.le
  rw [Function.iterate_succ_apply']
  exact (run_succ_of_next hrun).trans (step_drained_length h (hreset _ le_rfl))

/-- `k` POPEVs bring a waiting reset `k` nearer (log 19). -/
theorem iterate_countDown_reset (k n : Nat) (rest : List HostAction) :
    countDown^[k] (.assertReset (k + n) :: rest) = .assertReset n :: rest := by
  induction k with
  | zero => rw [Nat.zero_add]; rfl
  | succ k ih => rw [Function.iterate_succ_apply, Nat.add_right_comm, countDown_reset, ih]

/-- A reset that waits for more POPEVs does not come before the next one. -/
theorem resetIsNow_iterate_countDown {k n : Nat} (h : k < n) (rest : List HostAction) :
    resetIsNow (countDown^[k] (.assertReset n :: rest)) = false := by
  obtain ⟨m, rfl⟩ := Nat.exists_eq_add_of_lt h
  rw [Nat.add_assoc, iterate_countDown_reset]
  rfl

theorem resetIsNow_of_no_reset {input : List HostAction} (h : ∀ n rest, input ≠ .assertReset n :: rest) :
    resetIsNow input = false := by
  unfold resetIsNow
  split
  · exact absurd rfl (h _ _)
  · rfl

/-- Settles O59: one POPEV a step, for as many steps as the pending reset allows. -/
theorem drainEmptiesTheQueue : Obligations.DrainEmptiesTheQueue := by
  intro s rest hrun hline hread
  refine ⟨fun hno hin => ?_, fun n hn hin => ?_, fun n hin => ?_⟩
  · have hfix (k : Nat) : countDown^[k] rest = rest := Function.iterate_fixed (countDown_of_no_reset hno) k
    have hall := run_drain_all ⟨hrun, hline, hread, hin⟩ fun k _ => by rw [hfix, resetIsNow_of_no_reset hno]
    rwa [hfix] at hall
  · have hd : Draining s (.assertReset n :: rest) := ⟨hrun, hline, hread, hin⟩
    have hcut := run_drain hd hn fun k hk => resetIsNow_iterate_countDown hk rest
    rw [show countDown^[n] (.assertReset n :: rest) = _ from iterate_countDown_reset n 0 rest] at hcut
    exact ⟨hcut, (run_succ_of_next hcut).trans (step_of_draining_reset (hd.draining_drained n _))⟩
  · have hall := run_drain_all ⟨hrun, hline, hread, hin⟩ fun k hk =>
      resetIsNow_iterate_countDown (by omega : k < s.evq.length + 1 + n) rest
    rwa [iterate_countDown_reset] at hall

end Sys2Proof.Machine
end

section
/-! PROOFS. The canvas commands (40_canvas.md R100 to R112): what each leaves in the framebuffer, then its rule. A
command's bytes decode because they are its encoding (O1). -/

namespace Sys2Proof.Machine

/-- The two instructions of an operation with a state, told apart by the state. -/
theorem mem_onOff_iff {on : Bool} {i iOn iOff : Instr} :
    (on, i) ∈ [(true, iOn), (false, iOff)] ↔ on = true ∧ i = iOn ∨ on = false ∧ i = iOff := by
  simp

/-! ## Pixels -/

/-- A pixel of the picture passes the bound check in both modes (R100). -/
theorem passesBound_of_lt {cfg : Config} {x y : Nat} (hx : x < cfg.width) (hy : y < cfg.height) :
    PassesBound cfg x y :=
  ⟨fun _ => by omega, fun _ => ⟨hx, hy⟩⟩

theorem setPixel_of_inside {s : State} {x y : Nat} (on : Bool) (hb : PassesBound s.cfg x y)
    (h : pixelIndex s.cfg x y < frameLength s.cfg) : setPixel on x y s = writeFrame (s.fb.write (pixelIndex s.cfg x y)
      (setBit on (pixelMask y) (s.fb.read (pixelIndex s.cfg x y)))) s := by
  rcases setPixel_cases on x y s with ⟨hn, -⟩ | ⟨-, hle, -⟩ | ⟨-, -, e⟩
  · exact absurd hb hn
  · exact absurd hle (Nat.not_le.2 h)
  · exact e

theorem getPixel_of_inside {s : State} {x y : Nat} (hb : PassesBound s.cfg x y)
    (h : pixelIndex s.cfg x y < frameLength s.cfg) : getPixel x y s = emitResp [bitByte (pixelValue s x y)] s := by
  rcases getPixel_cases x y s with ⟨hn, -⟩ | ⟨-, hle, -⟩ | ⟨-, -, e⟩
  · exact absurd hb hn
  · exact absurd hle (Nat.not_le.2 h)
  · exact e

/-- Setting a pixel in one byte of a memory changes that bit of that byte and no other bit (R101). -/
theorem getLsbD_read_write_setBit {m : Memory} (hm : m.wf) (on : Bool) (i y a k : Nat) :
    ((m.write i (setBit on (pixelMask y) (m.read i))).read a).getLsbD k =
      if a = i ∧ k = y % 8 then on else (m.read a).getLsbD k := by
  rw [Memory.read_write hm]
  by_cases ha : a = i
  · subst ha
    simp only [if_true, true_and, setBit_getLsbD]
  · simp only [ha, if_false, false_and]

/-- The two SETPX instructions: their bytes, and their one operation with the state of bit 0 of the opcode. -/
theorem setpx_spec {x y : U16} {on : Bool} {i : Instr}
    (h : (on, i) ∈ [(true, Instr.setpxOn x y), (false, Instr.setpxOff x y)]) :
    decodeItem (.command [if on then 0x11 else 0x10, lowByte x, highByte x, lowByte y, highByte y]) = .ok i ∧
    ∀ s, Running s → exec i s = .next (setPixel on x.toNat y.toNat s) := by
  rcases mem_onOff_iff.1 h with ⟨rfl, rfl⟩ | ⟨rfl, rfl⟩
  · exact ⟨decodeAfterEncodeIsIdentity (.setpxOn x y) rfl, fun _ hr => exec_of_running hr _⟩
  · exact ⟨decodeAfterEncodeIsIdentity (.setpxOff x y) rfl, fun _ hr => exec_of_running hr _⟩

/-- Settles O8: each case of `setPixel` is one clause; the written byte differs in the pixel's bit alone. -/
theorem setPixelFollowsItsRule : Obligations.SetPixelFollowsItsRule := by
  intro s x y on i hi hr hf
  obtain ⟨hdecode, hexec⟩ := setpx_spec hi
  rw [hexec s hr]
  refine ⟨hdecode, ?_⟩
  rcases setPixel_cases on x.toNat y.toNat s with ⟨hb, e⟩ | ⟨hb, hle, e⟩ | ⟨hb, hlt, e⟩
  · exact ⟨fun _ => congrArg _ e, fun h => absurd h hb, fun h => absurd h hb⟩
  · exact ⟨fun h => absurd hb h, fun _ _ => ⟨_, shows_infoField 4 _, congrArg _ e⟩,
      fun _ h => absurd hle (Nat.not_le.2 h)⟩
  · exact ⟨fun h => absurd hb h, fun _ h => absurd h (Nat.not_le.2 hlt),
      fun _ _ => ⟨_, congrArg _ e, getLsbD_read_write_setBit hf.1 on _ y.toNat⟩⟩

/-- Settles O9: each case of `getPixel` is one clause. -/
theorem getPixelFollowsItsRule : Obligations.GetPixelFollowsItsRule := by
  intro s x y hr
  rw [exec_of_running hr]
  refine ⟨decodeAfterEncodeIsIdentity (.getpx x y) rfl, ?_⟩
  rcases getPixel_cases x.toNat y.toNat s with ⟨hb, e⟩ | ⟨hb, hle, e⟩ | ⟨hb, hlt, e⟩
  · exact ⟨fun _ => congrArg _ e, fun h => absurd h hb, fun h => absurd h hb⟩
  · exact ⟨fun h => absurd hb h, fun _ _ => ⟨_, shows_infoField 4 _, congrArg _ e⟩,
      fun _ h => absurd hle (Nat.not_le.2 h)⟩
  · exact ⟨fun h => absurd hb h, fun _ h => absurd h (Nat.not_le.2 hlt), fun _ _ => congrArg _ e⟩

/-- After a SETPX inside the picture a pixel of the picture has the new state if it is the one named, and its old
value otherwise (R108). -/
theorem pixelValue_setPixel {s : State} {x y x' y' : Nat} (on : Bool) (hfb : s.fb.wf)
    (hc : configFailure s.cfg = none) (hx : x < s.cfg.width) (hy : y < s.cfg.height) (hx' : x' < s.cfg.width) :
    pixelValue (setPixel on x y s) x' y' = if x' = x ∧ y' = y then on else pixelValue s x' y' := by
  rw [setPixel_of_inside on (passesBound_of_lt hx hy) (pixelIndex_lt (height_of_config hc).1 hx hy)]
  refine (getLsbD_read_write_setBit hfb on _ y _ _).trans (if_congr ⟨fun h => ?_, ?_⟩ rfl rfl)
  · obtain ⟨hindex, hbit⟩ := h
    obtain ⟨hcol, hrow⟩ := pixelIndex_inj hx' hx hindex
    exact ⟨hcol, by omega⟩
  · rintro ⟨rfl, rfl⟩
    exact ⟨rfl, rfl⟩

/-- Settles O10: both the answer and the other pixels are read off the pixel values after SETPX. -/
theorem setPixelIsReadBack : Obligations.SetPixelIsReadBack := by
  intro s x y on i hi hr hf hc hx hy
  have hb := passesBound_of_lt hx hy
  have hlt := pixelIndex_lt (height_of_config hc).1 hx hy
  obtain ⟨m, hm⟩ : ∃ m, setPixel on x.toNat y.toNat s = writeFrame m s := ⟨_, setPixel_of_inside on hb hlt⟩
  have hvalue {x' y' : Nat} (hx' : x' < s.cfg.width) : pixelValue (writeFrame m s) x' y' = _ :=
    hm ▸ pixelValue_setPixel on hf.1 hc hx hy hx'
  have hr' : Running (writeFrame m s) := hr
  refine ⟨writeFrame m s, _, hm ▸ (setpx_spec hi).2 s hr, exec_of_running hr' _, ?_, fun x' y' hx' _ hne => ?_⟩
  · rw [effect, getPixel_of_inside (s := writeFrame m s) hb hlt, hvalue hx, if_pos ⟨rfl, rfl⟩]
    rfl
  · rw [hvalue hx', if_neg (by omega)]

/-! ## Whole-buffer commands -/

theorem read_fillFrame (on : Bool) (s : State) {a : Nat} (h : a < frameLength s.cfg) :
    (fillFrame on s).fb.read a = fillByte on := by
  rw [fillFrame, writeFrame_fb, Memory.read_ofBytes, if_pos (Nat.zero_le a), Nat.sub_zero,
    List.getD_replicate _ h]

/-- Settles O11: the buffer is made of `LEN` copies of the one byte. -/
theorem fillFollowsItsRule : Obligations.FillFollowsItsRule := by
  intro s on i hi hr
  rcases mem_onOff_iff.1 hi with ⟨rfl, rfl⟩ | ⟨rfl, rfl⟩
  · exact ⟨rfl, _, exec_of_running hr .fillOn, fun a ha => read_fillFrame true s ha⟩
  · exact ⟨rfl, _, exec_of_running hr .fillOff, fun a ha => read_fillFrame false s ha⟩

/-- Settles O12: the second fill decides every byte. -/
theorem fillOnThenOffClears : Obligations.FillOnThenOffClears := by
  intro s hr
  have hr' : Running (fillFrame true s) := hr
  exact ⟨_, _, exec_of_running hr .fillOn, exec_of_running hr' .fillOff, rfl,
    fun a ha => read_fillFrame false (fillFrame true s) ha⟩

theorem read_invertFrame (s : State) {a : Nat} (h : a < frameLength s.cfg) :
    (invertFrame s).fb.read a = ~~~(s.fb.read a) := by
  rw [invertFrame, writeFrame_fb, Memory.read_ofBytes, if_pos (Nat.zero_le a), Nat.sub_zero,
    show unlistedByte = ~~~0xFF#8 from rfl, List.getD_map, Memory.getD_slice _ _ _ _ _ h, Nat.zero_add]

theorem frameInv_invertFrame (s : State) : FrameInv (invertFrame s) :=
  frame_ofBytes (s := s) (by rw [List.length_map, Memory.length_slice])

/-- Two INVERTs give every byte of the buffer back, whatever form `FB` has (R109). -/
theorem read_invertFrame_invertFrame (s : State) {a : Nat} (h : a < frameLength s.cfg) :
    (invertFrame (invertFrame s)).fb.read a = s.fb.read a := by
  rw [read_invertFrame (invertFrame s) h, read_invertFrame s h, BitVec.not_not]

/-- Two INVERTs leave only `dirty` set: the canonical form inside the buffer is unique (R104). -/
theorem invertFrame_invertFrame {s : State} (hf : FrameInv s) :
    invertFrame (invertFrame s) = { s with dirty := true } := by
  obtain ⟨hwf, hbelow⟩ := hf
  obtain ⟨hwf', hbelow'⟩ := frameInv_invertFrame (invertFrame s)
  have hfb : (invertFrame (invertFrame s)).fb = s.fb := by
    refine Memory.ext hwf' hwf fun a => ?_
    rcases Nat.lt_or_ge a (frameLength s.cfg) with h | h
    · exact read_invertFrame_invertFrame s h
    · rw [Memory.read_of_below hbelow' h, Memory.read_of_below hbelow h]
  exact congrArg (writeFrame · s) hfb

/-- Two INVERTs complete on a running block. -/
theorem exec_invert_invert {s : State} (hr : Running s) :
    exec .invert s = .next (invertFrame s) ∧ exec .invert (invertFrame s) = .next (invertFrame (invertFrame s)) :=
  have hr' : Running (invertFrame s) := hr
  ⟨exec_of_running hr .invert, exec_of_running hr' .invert⟩

/-- Settles O13: byte by byte for one INVERT, and as data for two. -/
theorem invertFollowsItsRule : Obligations.InvertFollowsItsRule := by
  refine ⟨rfl, fun s hr hf => ?_⟩
  obtain ⟨hfirst, hsecond⟩ := exec_invert_invert hr
  exact ⟨⟨_, hfirst, fun a ha => read_invertFrame s ha⟩, _, hfirst, invertFrame_invertFrame hf ▸ hsecond⟩

/-- Settles O14: complementing a byte twice gives it back. -/
theorem invertTwiceRestores : Obligations.InvertTwiceRestores := by
  intro s hr
  obtain ⟨hfirst, hsecond⟩ := exec_invert_invert hr
  exact ⟨_, _, hfirst, hsecond, fun a ha => read_invertFrame_invertFrame s ha⟩

/-! ## Row groups and COPY -/

/-- A width that passed the check of reset is positive (R232). -/
theorem width_pos_of_config {cfg : Config} (h : configFailure cfg = none) : 0 < cfg.width := by
  have hwidth := (configFailure_eq_none_iff cfg).1 h (0x02, decide (1 ≤ cfg.width ∧ cfg.width ≤ 65535))
    (by simp [configChecks])
  exact (of_decide_eq_true hwidth).1

/-- With a checked configuration the row groups that start inside the buffer are those of the picture (R105). -/
theorem row_lt_frameLength_iff {cfg : Config} (h : configFailure cfg = none) (row : Nat) :
    row * cfg.width < frameLength cfg ↔ row < cfg.height / 8 := by
  rw [frameLength_eq (height_of_config h).1, Nat.mul_comm, Nat.mul_lt_mul_left (width_pos_of_config h)]

/-- Settles O15: past the end nothing, and inside the complement of the row group. -/
theorem invertRowFollowsItsRule : Obligations.InvertRowFollowsItsRule := by
  intro s row hr hf
  rw [exec_of_running hr, effect]
  refine ⟨decodeAfterEncodeIsIdentity (.invrow row) rfl, fun hc => row_lt_frameLength_iff hc _, fun hle => ?_,
    fun hlt => ?_⟩
  · exact congrArg Host.Outcome.next (if_pos hle)
  · rw [invertRow_of_lt hlt]
    exact ⟨_, rfl, Memory.read_complement hf.1 _ _⟩

/-- Settles O17: `copyFrame` splits on the size as the rule does. -/
theorem copyFollowsItsRule : Obligations.CopyFollowsItsRule := by
  intro s d hr
  rw [exec_of_running hr]
  refine ⟨fun hlt => decodeAfterEncodeIsIdentity (.copy d) (decide_eq_true hlt), ?_⟩
  rcases copyFrame_cases d s with ⟨hlen, e⟩ | ⟨hlen, e⟩
  · refine ⟨fun _ => ⟨_, congrArg _ e, fun a _ => ?_⟩, fun h => absurd hlen h⟩
    rw [Memory.read_ofBytes, if_pos (Nat.zero_le a)]; rfl
  · exact ⟨fun h => absurd h hlen, fun _ => ⟨_, shows_infoField 2 d.length, congrArg _ e⟩⟩

/-! ## Dirty flag and status -/

/-- Settles O18: the effect is the one field update. -/
theorem clearDirtyFollowsItsRule : Obligations.ClearDirtyFollowsItsRule :=
  ⟨rfl, fun _ hr => exec_of_running hr .clrdirty⟩

theorem getLsbD_bitByte (b : Bool) (k : Nat) : (bitByte b).getLsbD k = (b && decide (k = 0)) := by
  cases b with
  | false => simp [bitByte]
  | true => simp [bitByte, BitVec.getLsbD_one]

/-- The first STATUS byte, bit by bit (R33). -/
theorem getLsbD_statusBits (b0 b1 b2 : Bool) (k : Nat) :
    (bitByte b0 ||| (bitByte b1 <<< 1) ||| (bitByte b2 <<< 2)).getLsbD k =
      ((b0 && decide (k = 0)) || (b1 && decide (k = 1)) || (b2 && decide (k = 2))) := by
  simp only [BitVec.getLsbD_or, BitVec.getLsbD_shiftLeft, getLsbD_bitByte]
  rcases k with _ | _ | _ | k <;> simp

/-- Settles O19: the STATUS bits stand side by side, with nothing above them. -/
theorem readStatusFollowsItsRule : Obligations.ReadStatusFollowsItsRule := by
  refine ⟨rfl, fun s hr => ⟨_, exec_of_running hr .rdstat, ?_⟩⟩
  simp only [getLsbD_statusBits]
  refine ⟨by simp, by simp, by simp, fun k hk => ?_⟩
  simp [show k ≠ 0 by omega, show k ≠ 1 by omega, show k ≠ 2 by omega]

end Sys2Proof.Machine
end

section
/-! PROOFS. The glyph commands (41_glyph.md R130 to R134): what PRCHAR and PRINT leave when nothing overruns is one
update, `drawText`, and PRINT is PRCHARs because that update splits after the first character. -/

namespace Sys2Proof.Machine

/-! ## The instructions and their states -/

/-- PRCHAR with the state of bit 0 of its opcode (R131). -/
def prchar : Bool → Byte → U16 → U16 → Instr
  | true => .prcharOn
  | false => .prcharOff

/-- PRINT with the state of bit 0 of its opcode (R133). -/
def print : Bool → U16 → U16 → List Byte → Instr
  | true => .printOn
  | false => .printOff

theorem eq_prchar_of_mem {c : Byte} {row col : U16} {on : Bool} {i : Instr}
    (h : (on, i) ∈ [(true, Instr.prcharOn c row col), (false, Instr.prcharOff c row col)]) :
    i = prchar on c row col := by
  rcases mem_onOff_iff.1 h with ⟨rfl, rfl⟩ | ⟨rfl, rfl⟩
  · rfl
  · rfl

theorem eq_print_of_mem {row col : U16} {text : List Byte} {on : Bool} {i : Instr}
    (h : (on, i) ∈ [(true, Instr.printOn row col text), (false, Instr.printOff row col text)]) :
    i = print on row col text := by
  rcases mem_onOff_iff.1 h with ⟨rfl, rfl⟩ | ⟨rfl, rfl⟩
  · rfl
  · rfl

theorem exec_prchar {s : State} (hr : Running s) (on : Bool) (c : Byte) (row col : U16) :
    exec (prchar on c row col) s = .next (printChar on c row.toNat col.toNat s) := by
  cases on with
  | true => exact exec_of_running hr (.prcharOn c row col)
  | false => exact exec_of_running hr (.prcharOff c row col)

theorem exec_print {s : State} (hr : Running s) (on : Bool) (row col : U16) (text : List Byte) :
    exec (print on row col text) s = .next (printText on row.toNat col.toNat text s) := by
  cases on with
  | true => exact exec_of_running hr (.printOn row col text)
  | false => exact exec_of_running hr (.printOff row col text)

theorem decodeItem_prchar (on : Bool) (c : Byte) (row col : U16) :
    decodeItem (.command [if on then 0x31 else 0x30, c, lowByte row, highByte row, lowByte col, highByte col]) =
      .ok (prchar on c row col) := by
  cases on with
  | true => exact decodeAfterEncodeIsIdentity (.prcharOn c row col) rfl
  | false => exact decodeAfterEncodeIsIdentity (.prcharOff c row col) rfl

theorem decodeItem_print (on : Bool) (row col : U16) {text : List Byte} (h : text.length < 256) :
    decodeItem (.command (if on then 0x33 :: lowByte row :: highByte row :: lowByte col ::
        highByte col :: BitVec.ofNat 8 text.length :: text
      else 0x32 :: lowByte row :: highByte row :: lowByte col :: highByte col :: BitVec.ofNat 8 text.length :: text)) =
      .ok (print on row col text) := by
  cases on with
  | true => exact decodeAfterEncodeIsIdentity (.printOn row col text) (decide_eq_true h)
  | false => exact decodeAfterEncodeIsIdentity (.printOff row col text) (decide_eq_true h)

/-! ## PRCHAR -/

@[simp] theorem cellBase_zero (cfg : Config) (row col : Nat) : cellBase cfg row col 0 = cfg.width * row + col := by
  simp [cellBase]

/-- The five glyph bytes written at `a`, and every other byte as before (R131). -/
theorem read_writeBytes_glyphBytes {m : Memory} (hm : m.wf) (cfg : Config) (on : Bool) (c : Byte) (a : Nat) :
    (∀ k < 5, (m.writeBytes a (glyphBytes cfg on c)).read (a + k) = drawnColumn cfg on c k) ∧
    ∀ b, b < a ∨ a + 5 ≤ b → (m.writeBytes a (glyphBytes cfg on c)).read b = m.read b := by
  constructor
  · intro k hk
    rw [Memory.read_writeBytes hm, length_glyphBytes, if_pos (by omega), Nat.add_sub_cancel_left,
      getD_glyphBytes cfg on c k unlistedByte hk]
  · intro b hb
    rw [Memory.read_writeBytes hm, length_glyphBytes, if_neg (by omega)]

/-- Settles O20: each case of `printChar` is one clause. -/
theorem printCharFollowsItsRule : Obligations.PrintCharFollowsItsRule := by
  intro s c row col on i hi hr hf
  obtain rfl := eq_prchar_of_mem hi
  rw [exec_prchar hr]
  refine ⟨decodeItem_prchar on c row col, ?_⟩
  rcases printChar_cases on c row.toNat col.toNat s with ⟨hd, e⟩ | ⟨hd, hle, e⟩ | ⟨hd, hlt, e⟩
  · exact ⟨fun _ => congrArg _ e, fun h => absurd h hd, fun h => absurd h hd⟩
  · rw [cellBase_zero] at hle e
    exact ⟨fun h => absurd hd h, fun _ _ => ⟨_, shows_infoField 4 _, congrArg _ e⟩,
      fun _ h => absurd hle (Nat.not_le.2 h)⟩
  · rw [cellBase_zero] at hlt e
    exact ⟨fun h => absurd hd h, fun _ h => absurd h (Nat.not_le.2 hlt),
      fun _ _ => ⟨_, congrArg _ e, read_writeBytes_glyphBytes hf.1 s.cfg on c _⟩⟩

/-! ## PRINT -/

/-- What the characters of a text from place `j` on leave when none of them overruns (R133). -/
def drawText (on : Bool) (row col j : Nat) (text : List Byte) (s : State) : State :=
  { s with fb := writeText s.cfg on row col j text s.fb, dirty := s.dirty || text.any printable }

theorem writeText_of_none_printable {cfg : Config} {on : Bool} {row col : Nat} {text : List Byte}
    (h : text.any printable = false) (j : Nat) (m : Memory) : writeText cfg on row col j text m = m := by
  induction text generalizing j with
  | nil => rfl
  | cons c t ih =>
    obtain ⟨hc, ht⟩ := Bool.or_eq_false_iff.1 h
    rw [writeText, hc]
    exact ih ht (j + 1)

theorem printText_of_overrun {on : Bool} {row col i : Nat} {text : List Byte} {s : State}
    (h : textOverrun s.cfg row col 0 text = some i) : printText on row col text s = raise (.overrun i) s := by
  rw [printText, h]

theorem printText_of_fits {row col : Nat} {text : List Byte} {s : State} (on : Bool)
    (h : textOverrun s.cfg row col 0 text = none) : printText on row col text s = drawText on row col 0 text s := by
  rcases printText_cases on row col text s with ⟨i, hi, -⟩ | ⟨-, hp, e⟩ | ⟨-, hp, e⟩
  · rw [h] at hi; cases hi
  · rw [e, drawText, writeText_of_none_printable hp, hp, Bool.or_false]
  · rw [e, drawText, hp, Bool.or_true, writeFrame]

/-- Some character is printable, in the words of the rule (R130). -/
theorem any_printable (text : List Byte) : text.any printable = decide (∃ c ∈ text, Drawn c) := by
  rw [Bool.eq_iff_iff, List.any_eq_true, decide_eq_true_iff]
  simp only [printable_iff]

/-- Settles O21: the check pass decides between the fault and the write pass, whose bytes are read cell by cell. -/
theorem printFollowsItsRule : Obligations.PrintFollowsItsRule := by
  intro s row col text on i base hi hr hf hbase
  obtain rfl := eq_print_of_mem hi
  obtain rfl : base = cellBase s.cfg row.toNat col.toNat := funext hbase
  rw [exec_print hr]
  refine ⟨decodeItem_print on row col, fun j c hc hd hle hfirst => ?_, fun hfits => ?_⟩
  · have hover := textOverrun_first text 0 j c hc hd (by rwa [Nat.zero_add])
      (by simpa only [Nat.zero_add] using hfirst)
    rw [Nat.zero_add] at hover
    exact ⟨_, shows_infoField 4 _, congrArg _ (printText_of_overrun hover)⟩
  · have hnone := (textOverrun_none text 0).2 (by simpa only [Nat.zero_add] using hfits)
    have hin := writeText_in (cfg := s.cfg) (on := on) (row := row.toNat) (col := col.toNat) text 0 s.fb hf.1
    have hout := writeText_out (cfg := s.cfg) (on := on) (row := row.toNat) (col := col.toNat) text 0 s.fb hf.1
    simp only [Nat.zero_add] at hin hout
    rw [printText_of_fits on hnone, drawText, any_printable]
    exact ⟨_, rfl, hin, hout⟩

/-! ## PRINT as a sequence of PRCHARs -/

/-- A text is drawn by drawing its first character and then the rest one place on. -/
theorem drawText_cons (on : Bool) (row col j : Nat) (c : Byte) (text : List Byte) (s : State) :
    drawText on row col j (c :: text) s = drawText on row col (j + 1) text (drawText on row col j [c] s) := by
  simp [drawText, writeText, Bool.or_assoc]

/-- Character `j` of a text stands where PRCHAR puts it `j*P_ADVANCE` columns on (R133). -/
theorem cellBase_add_advance (cfg : Config) (row col j : Nat) :
    cellBase cfg row (col + j * cfg.advance) 0 = cellBase cfg row col j := by
  rw [cellBase_zero, cellBase, Nat.add_assoc]

/-- A PRCHAR that does not overrun draws its character where PRINT does (R134). -/
theorem printChar_of_fits {row col j : Nat} {c : Byte} {s : State} (on : Bool)
    (h : Drawn c → cellBase s.cfg row col j + 4 < frameLength s.cfg) :
    printChar on c row (col + j * s.cfg.advance) s = drawText on row col j [c] s := by
  have hcases := printChar_cases on c row (col + j * s.cfg.advance) s
  rw [cellBase_add_advance] at hcases
  rcases hcases with ⟨hd, e⟩ | ⟨hd, hle, -⟩ | ⟨hd, -, e⟩
  · have hp : printable c = false := Bool.eq_false_iff.2 (mt (printable_iff c).1 hd)
    simp [e, drawText, writeText, hp]
  · exact absurd hle (Nat.not_le.2 (h hd))
  · simp [e, drawText, writeText, writeFrame, (printable_iff c).2 hd]

/-- A column that is a u16 value is the one its PRCHAR names. -/
theorem toNat_add_ofNat_of_lt {col : U16} {n : Nat} (h : col.toNat + n < 65536) :
    (col + BitVec.ofNat 16 n).toNat = col.toNat + n := by
  rw [BitVec.toNat_add, BitVec.toNat_ofNat]
  omega

/-- The PRCHARs of a text's characters from place `j` on, one after another, draw the text (R134). -/
theorem execAll_prchar {cfg : Config} {on : Bool} {row col : U16} {text : List Byte} {j : Nat} {s : State}
    (hr : Running s) (hcfg : s.cfg = cfg) (hcol : col.toNat + (j + text.length) * cfg.advance < 65536)
    (hfits : ∀ k c, text[k]? = some c → Drawn c →
      cellBase cfg row.toNat col.toNat (j + k) + 4 < frameLength cfg) :
    execAll ((text.zipIdx j).map fun cj => prchar on cj.1 row (col + BitVec.ofNat 16 (cj.2 * cfg.advance))) s =
      .next (drawText on row.toNat col.toNat j text s) := by
  induction text generalizing j s with
  | nil => simp [execAll, drawText, writeText]
  | cons c t ih =>
    subst hcfg
    rw [List.length_cons] at hcol
    have hplace : j * s.cfg.advance ≤ (j + (t.length + 1)) * s.cfg.advance := Nat.mul_le_mul_right _ (by omega)
    have hchar : exec (prchar on c row (col + BitVec.ofNat 16 (j * s.cfg.advance))) s =
        .next (drawText on row.toNat col.toNat j [c] s) := by
      rw [exec_prchar hr, toNat_add_ofNat_of_lt (by omega), printChar_of_fits (j := j) on (hfits 0 c rfl)]
    have hrest := ih (s := drawText on row.toNat col.toNat j [c] s) (j := j + 1) hr rfl
      (by rwa [Nat.add_assoc, Nat.add_comm 1])
      fun k d hk => by rw [Nat.add_assoc, Nat.add_comm 1]; exact hfits (k + 1) d hk
    rw [List.zipIdx_cons, List.map_cons, execAll, drawText_cons on row.toNat col.toNat j c t, hchar]
    exact hrest

/-- When no character overruns, the PRCHARs give what the PRINT gives, for either state (R134). -/
theorem execAll_prchar_eq_exec_print {s : State} {row col : U16} {text : List Byte} (on : Bool) (hr : Running s)
    (hfits : ∀ j c, text[j]? = some c → Drawn c →
      cellBase s.cfg row.toNat col.toNat j + 4 < frameLength s.cfg)
    (hcol : col.toNat + text.length * s.cfg.advance < 65536) :
    execAll (text.zipIdx.map fun cj => prchar on cj.1 row (col + BitVec.ofNat 16 (cj.2 * s.cfg.advance))) s =
      exec (print on row col text) s := by
  have hfits' : ∀ j c, text[j]? = some c → Drawn c →
      cellBase s.cfg row.toNat col.toNat (0 + j) + 4 < frameLength s.cfg := by simpa only [Nat.zero_add] using hfits
  rw [exec_print hr, printText_of_fits on ((textOverrun_none text 0).2 hfits')]
  exact execAll_prchar hr rfl (by rwa [Nat.zero_add]) hfits'

/-- Settles O22: the equation for one state, read at both. -/
theorem printEqualsPrintChars : Obligations.PrintEqualsPrintChars :=
  fun _ _ _ _ hr hfits hcol =>
    ⟨execAll_prchar_eq_exec_print true hr hfits hcol, execAll_prchar_eq_exec_print false hr hfits hcol⟩

end Sys2Proof.Machine
end

section
/-! PROOFS. The display-frame read-out (42_frame.md R140 to R143): the messages of the rule are those the model sends,
and a refusal at message `k` splits the four chunks at place `k`. -/

namespace Sys2Proof.Machine

/-- The rule's message is the model's (R83, R140). -/
theorem displayMessage_fb (s : State) : displayMessage s.fb = chunkMessage s := rfl

/-- The chunks up to `n` are those before `k`, `k` itself and some after it. -/
theorem range_split_at {k n : Nat} (h : k < n) : ∃ post, List.range n = List.range k ++ k :: post := by
  obtain ⟨m, rfl⟩ := Nat.exists_eq_add_of_lt h
  refine ⟨(List.range m).map fun j => k + (j + 1), ?_⟩
  rw [Nat.add_assoc, List.range_add, List.range_succ_eq_map, List.map_cons, List.map_map]
  rfl

/-- The response to a refusal at message `k` (R87). -/
theorem or_refusedChunk {k : Nat} (h : k < 4) : (0x80 : Byte) ||| BitVec.ofNat 8 k = BitVec.ofNat 8 (0x80 + k) := by
  interval_cases k <;> rfl

/-- Settles O23: each case of `flushFrame` is one clause, and the answers decide the read-out. -/
theorem flushFollowsItsRule : Obligations.FlushFollowsItsRule := by
  refine ⟨rfl, fun s hr => ?_⟩
  rw [exec_of_running hr, effect]
  rcases flushFrame_cases s with ⟨hgeom, e⟩ | ⟨hgeom, hclean, e⟩ | ⟨hgeom, hdirty, e⟩
  · exact ⟨fun _ => ⟨_, _, shows_infoField 2 _, shows_infoField 2 _, congrArg _ e⟩,
      fun hw hh => absurd ⟨hw, hh⟩ hgeom, fun hw hh => absurd ⟨hw, hh⟩ hgeom,
      fun _ _ hw hh => absurd ⟨hw, hh⟩ hgeom⟩
  · have hnot : s.dirty ≠ true := Bool.eq_false_iff.1 hclean
    exact ⟨fun h => absurd hgeom h, fun _ _ _ => congrArg _ e, fun _ _ h => absurd h hnot,
      fun _ _ _ _ h => absurd h hnot⟩
  · refine ⟨fun h => absurd hgeom h, fun _ _ h => absurd hdirty (Bool.eq_false_iff.1 h), fun _ _ _ hacks => ?_,
      fun k hk _ _ _ hacks hrefused => ?_⟩
    · obtain ⟨acks, draws, hsent⟩ := sendChunks_accepted (List.range 4) s hacks
      exact ⟨acks, draws, congrArg _ (e.trans hsent)⟩
    · obtain ⟨post, hsplit⟩ := range_split_at hk
      obtain ⟨acks, draws, hsent⟩ := sendChunks_refused (List.range k) k post s
        (by rwa [List.length_range]) (by rwa [List.length_range])
      rw [← hsplit, ← List.range_succ, displayMessage_fb, or_refusedChunk hk] at hsent
      exact ⟨acks, draws, congrArg _ (e.trans hsent)⟩

end Sys2Proof.Machine
end

section
/-! PROOFS. Which bytes a report decoder reads (30_encoding.md R81, R82; 43_decoder.md R150, R159): reports that show
the same levels, encoder value and samples act alike, so the bytes past the rule's own are ignored. -/

namespace Sys2Proof.Machine

/-- A byte below the cut of a payload is the payload's own. -/
theorem getD_take_of_lt {p : List Byte} {n i : Nat} (h : i < n) (d : Byte) : (p.take n).getD i d = p.getD i d := by
  simp only [List.getD_eq_getElem?_getD, List.getElem?_take_of_lt h]

/-! ## Button reports -/

/-- A level below 8 times the cut is read from the bytes before it (R81). -/
theorem buttonLevel_take {n i : Nat} (h : i < 8 * n) (p : List Byte) : buttonLevel (p.take n) i = buttonLevel p i := by
  simp only [buttonLevel, getD_take_of_lt (Nat.div_lt_of_lt_mul h)]

/-- The button loop reads the levels of its buttons and nothing else. -/
theorem scanButtons_congr {s : State} {p q : List Byte}
    (h : ∀ i < s.cfg.buttonCount, buttonLevel p i = buttonLevel q i) : scanButtons s p = scanButtons s q :=
  List.foldl_ext _ _ _ fun w i hi => by simp only [scanButton, h i (List.mem_range.1 hi)]

/-- Two accepted button reports with the same levels and encoder value act alike. -/
theorem buttonReport_congr {s : State} {p q : List Byte} (hp : 5 ≤ p.length) (hq : 5 ≤ q.length)
    (hlevel : ∀ i < s.cfg.buttonCount, buttonLevel p i = buttonLevel q i) (henc : encoderRaw p = encoderRaw q) :
    buttonReport p s = buttonReport q s := by
  simp only [buttonReport, buttonPayloadMin, Nat.not_lt.2 hp, Nat.not_lt.2 hq, if_false, scanButtons_congr hlevel,
    henc]

/-- Settles O24: the levels of at most 32 buttons and the encoder value lie in the first 5 bytes. -/
theorem buttonReportLengthFollowsItsRule : Obligations.ButtonReportLengthFollowsItsRule := by
  intro s p hr
  simp only [exec_of_running hr, effect]
  refine ⟨fun hshort => ?_, fun hlong hc => ?_⟩
  · have hhigh : p.length / 256 = 0 := Nat.div_eq_of_lt (by omega)
    rw [show buttonReport p s = _ from if_pos hshort, reportError, invalidReportRecord, hhigh]
    rfl
  · obtain ⟨hcount, -, -⟩ := buttons_of_config hc
    refine congrArg Host.Outcome.next (buttonReport_congr hlong (by rw [List.length_take]; omega) (fun i hi => ?_) ?_)
    · exact (buttonLevel_take (by omega) p).symm
    · exact (getD_take_of_lt (by decide) _).symm

/-! ## Pad reports -/

/-- The pad loop reads the pads and values of its 16 samples and nothing else. -/
theorem scanSamples_congr {s : State} {p q : List Byte}
    (h : ∀ j < 16, samplePad p j = samplePad q j ∧ sampleValue p j = sampleValue q j) :
    scanSamples s p = scanSamples s q :=
  List.foldl_ext _ _ _ fun w j hj => by
    obtain ⟨hpad, hvalue⟩ := h j (List.mem_range.1 hj)
    simp only [scanSample, hpad, hvalue]

/-- Two pad reports of one length with the same samples act alike. -/
theorem padReport_congr {s : State} {p q : List Byte} (hlen : p.length = q.length)
    (h : ∀ j < 16, samplePad p j = samplePad q j ∧ sampleValue p j = sampleValue q j) :
    padReport p s = padReport q s := by
  simp only [padReport, hlen, scanSamples_congr h]

/-- Payloads that agree on their first 32 bytes show the same 16 samples (R82). -/
theorem sample_of_take_eq {p q : List Byte} (h : p.take 32 = q.take 32) {j : Nat} (hj : j < 16) :
    samplePad p j = samplePad q j ∧ sampleValue p j = sampleValue q j := by
  have hbyte : ∀ i < 32, p.getD i 0x00 = q.getD i 0x00 := fun i hi => by
    rw [← getD_take_of_lt hi, h, getD_take_of_lt hi]
  simp only [samplePad, sampleValue, hbyte (2 * j) (by omega), hbyte (2 * j + 1) (by omega), and_self]

/-- Settles O28: the 16 samples lie in the first 32 bytes. -/
theorem padReportLengthFollowsItsRule : Obligations.PadReportLengthFollowsItsRule := by
  intro s p hr
  simp only [exec_of_running hr, effect]
  refine ⟨fun hshort => ?_, fun q _ hlen htake => ?_⟩
  · rw [show padReport p s = _ from if_pos hshort]
    rfl
  · exact congrArg Host.Outcome.next (padReport_congr hlen fun j hj => sample_of_take_eq htake hj)

/-! ## Other reports -/

/-- A report with neither routed tag is ignored whole (R80). -/
theorem decodeReport_of_unrouted {r : List Byte} (h : ∀ tag ∈ r.head?, tag ≠ 0x01#8 ∧ tag ≠ 0x20#8) :
    decodeReport r = .rptIgnored r := by
  cases r with
  | nil => rfl
  | cons tag payload =>
    obtain ⟨hbtn, hpad⟩ := h tag rfl
    simp only [decodeReport]

/-- Settles O32: such a report decodes to the instruction whose effect is nothing. -/
theorem otherReportsAreIgnored : Obligations.OtherReportsAreIgnored := by
  refine ⟨fun s r hr => exec_of_running hr _, fun s r rest htag hready => ?_⟩
  have hdecode : decodeItem (.report r) = .ok (.rptIgnored r) := congrArg Except.ok (decodeReport_of_unrouted htag)
  have hrun : Running (withInput s rest) := hready.1
  rw [step_of_ready hready, performItem_of_ok hdecode]
  exact exec_of_running hrun _

end Sys2Proof.Machine
end

section
/-! PROOFS. Button reports (43_decoder.md R151 to R158): the rule is the loop's closed form and the queue's commit; a
report leaves every latch settled, and a settled latch makes its turn of the loop do nothing. -/

namespace Sys2Proof.Machine

/-! ## The rule -/

/-- The overflow fault of a number of events that fits its one-byte field (R190). -/
theorem raise_evqOverflow {n : Nat} (h : n < 256) (s : State) :
    raise (.evqOverflow n) s = faulted s 0x16 [BitVec.ofNat 8 n] := by
  rw [raise_eq_faulted, BlockFault.info, infoField_one n h]; rfl

/-- A report whose events are committed or overflow the queue: the two clauses of its rule exclude each other (R166). -/
theorem next_of_commit_or_overflow {s t u : State} {evs : List Event} (hcount : evs.length < 256)
    (h : (s.cfg.evqCap < s.evq.length + evs.length ∧ u = raise (.evqOverflow evs.length) s) ∨
      (s.evq.length + evs.length ≤ s.cfg.evqCap ∧ u = t)) :
    (s.evq.length + evs.length ≤ s.cfg.evqCap →
      (.next u : Host.Outcome State Fault Refusal) = .next t) ∧
    (s.cfg.evqCap < s.evq.length + evs.length →
      (.next u : Host.Outcome State Fault Refusal) = .next (faulted s 0x16 [BitVec.ofNat 8 evs.length])) := by
  rcases h with ⟨hover, rfl⟩ | ⟨hfits, rfl⟩
  · exact ⟨fun hfits => absurd hover (Nat.not_lt.2 hfits), fun _ => congrArg _ (raise_evqOverflow hcount s)⟩
  · exact ⟨fun _ => rfl, fun hover => absurd hover (Nat.not_lt.2 hfits)⟩

theorem length_encoderEvents_le (old new : Byte) (shift : Bool) : (encoderEvents old new shift).length ≤ 1 := by
  unfold encoderEvents
  split <;> simp

/-- Settles O25: the loop's closed form, then the encoder's event, then the commit or the overflow. -/
theorem buttonReportFollowsItsRule : Obligations.ButtonReportFollowsItsRule := by
  intro s p hr hb hc hlen
  refine ⟨rfl, ?_⟩
  obtain ⟨hbtn, hshift, hevs, hleds⟩ := scanButtons_spec s p hb hc
  have hcount : (buttonEvents s p ++ turnEvents s p).length < 256 := by
    have hbuttons : (buttonEvents s p).length ≤ s.cfg.buttonCount := length_filterMap_range_le _ _
    have hturn : (turnEvents s p).length ≤ 1 := length_encoderEvents_le _ _ _
    have hmax := (buttons_of_config hc).1
    rw [List.length_append]
    omega
  rw [exec_of_running hr, effect]
  rcases buttonReport_cases p s with ⟨hshort, -⟩ | ⟨-, evs, rfl, hcases⟩
  · exact absurd hshort (Nat.not_lt.2 hlen)
  · rw [hbtn, hshift, hevs, hleds,
      show encoderEvents s.encLast (encoderRaw p) (buttonLevel p s.cfg.shiftIndex) = turnEvents s p from rfl] at hcases
    exact next_of_commit_or_overflow hcount hcases

/-! ## A repeated report -/

/-- The latch of button `i` has the level a report shows, or is the sentinel's. -/
def Settled (cfg : Config) (p : List Byte) (btn : List Bool) (i : Nat) : Prop :=
  cfg.noneIndex = some i ∨ buttonLevel p i = btn.getD i false

/-- A settled button's turn does nothing (R157). -/
theorem scanButton_of_settled {cfg : Config} {p : List Byte} {w : ButtonScan} {i : Nat} (h : Settled cfg p w.btn i) :
    scanButton cfg p w i = w := by
  unfold scanButton
  split
  · rfl
  · next hne => rw [if_pos (h.resolve_left hne)]

/-- What a turn does to the latches: nothing at a settled button, else the button takes its level. -/
theorem scanButton_btn (cfg : Config) (p : List Byte) (w : ButtonScan) (i : Nat) :
    (Settled cfg p w.btn i ∧ (scanButton cfg p w i).btn = w.btn) ∨
    (scanButton cfg p w i).btn = w.btn.set i (buttonLevel p i) := by
  by_cases h : Settled cfg p w.btn i
  · exact .inl ⟨h, by rw [scanButton_of_settled h]⟩
  · obtain ⟨hne, hchanged⟩ := not_or.1 h
    right
    unfold scanButton
    rw [if_neg hne, if_neg hchanged]
    split <;> rfl

/-- Each turn keeps the number of latches, settles its button and keeps the others settled. -/
theorem settled_scanButton {cfg : Config} {p : List Byte} {w : ButtonScan} {i : Nat} (hi : i < w.btn.length) :
    (scanButton cfg p w i).btn.length = w.btn.length ∧
    ∀ j, (j = i ∨ Settled cfg p w.btn j) → Settled cfg p (scanButton cfg p w i).btn j := by
  rcases scanButton_btn cfg p w i with ⟨hsettled, e⟩ | e <;> rw [e]
  · refine ⟨rfl, ?_⟩
    rintro j (rfl | hj)
    · exact hsettled
    · exact hj
  · refine ⟨List.length_set, fun j hj => ?_⟩
    by_cases hji : j = i
    · subst hji
      exact .inr (by simp [hi])
    · refine (hj.resolve_left hji).imp id fun h => ?_
      simpa [List.getElem?_set_ne (Ne.symm hji)] using h

/-- After its first `n` turns the loop has settled the first `n` buttons. -/
theorem settled_foldl_scanButton {cfg : Config} {p : List Byte} (w : ButtonScan) {n : Nat} (hn : n ≤ w.btn.length) :
    ((List.range n).foldl (scanButton cfg p) w).btn.length = w.btn.length ∧
    ∀ j < n, Settled cfg p ((List.range n).foldl (scanButton cfg p) w).btn j := by
  induction n with
  | zero => exact ⟨rfl, fun j hj => absurd hj (Nat.not_lt_zero j)⟩
  | succ n ih =>
    obtain ⟨hlen, hprev⟩ := ih (by omega)
    rw [List.range_succ, List.foldl_append, List.foldl_cons, List.foldl_nil]
    obtain ⟨hlen', hturn⟩ := settled_scanButton (cfg := cfg) (p := p)
      (w := (List.range n).foldl (scanButton cfg p) w) (i := n) (by omega)
    refine ⟨hlen'.trans hlen, fun j hj => hturn j ?_⟩
    rcases Nat.lt_succ_iff_lt_or_eq.1 hj with hj | rfl
    · exact .inr (hprev j hj)
    · exact .inl rfl

/-- The button loop settles every button. -/
theorem settled_scanButtons {s : State} (p : List Byte) (hlen : s.btn.length = s.cfg.buttonCount) :
    ∀ i < s.cfg.buttonCount, Settled s.cfg p (scanButtons s p).btn i :=
  (settled_foldl_scanButton _ (Nat.le_of_eq hlen.symm)).2

/-- Turns of settled buttons do nothing. -/
theorem foldl_scanButton_of_settled {cfg : Config} {p : List Byte} {w : ButtonScan} {l : List Nat}
    (h : ∀ i ∈ l, Settled cfg p w.btn i) : l.foldl (scanButton cfg p) w = w := by
  induction l with
  | nil => rfl
  | cons i l ih =>
    rw [List.foldl_cons, scanButton_of_settled (h i List.mem_cons_self)]
    exact ih fun j hj => h j (List.mem_cons_of_mem i hj)

/-- The button loop does nothing when every button is settled. -/
theorem scanButtons_of_settled {s : State} {p : List Byte} (h : ∀ i < s.cfg.buttonCount, Settled s.cfg p s.btn i) :
    scanButtons s p = { btn := s.btn, shift := s.shift, evs := [], leds := [] } :=
  foldl_scanButton_of_settled fun i hi => h i (List.mem_range.1 hi)

/-- An accepted report whose levels and encoder value are those already held changes nothing (R157, R158). -/
theorem buttonReport_of_settled {s : State} {p : List Byte} (hp : 5 ≤ p.length) (hq : QueueInv s)
    (h : ∀ i < s.cfg.buttonCount, Settled s.cfg p s.btn i) (henc : s.encLast = encoderRaw p) :
    buttonReport p s = s := by
  have hevents (shift : Bool) : encoderEvents (encoderRaw p) (encoderRaw p) shift = [] := if_pos rfl
  simp only [buttonReport, buttonPayloadMin, Nat.not_lt.2 hp, if_false, scanButtons_of_settled h, henc, hevents,
    commitEvents, List.append_nil, List.length_nil, Nat.add_zero, Nat.not_lt.2 hq]
  rw [← henc]

/-- Settles O26: the first report settles every latch and the encoder value. -/
theorem repeatedButtonReportChangesNothing : Obligations.RepeatedButtonReportChangesNothing := by
  intro s t p hr hlen hp h ht
  obtain ⟨-, e⟩ := exec_eq_next.1 h
  rw [exec_of_running ht, effect]
  refine congrArg Host.Outcome.next ?_
  rcases buttonReport_cases p s with ⟨hshort, -⟩ | ⟨-, evs, -, ⟨-, hover⟩ | ⟨hfits, htaken⟩⟩
  · omega
  · rw [effect, hover] at e
    subst e
    exact absurd ht (BlockFault.code_ne_zero (.evqOverflow evs.length))
  · rw [effect, htaken] at e
    subst e
    exact buttonReport_of_settled hp (by simpa [QueueInv] using hfits) (settled_scanButtons p hlen) rfl

/-! ## The encoder -/

/-- Settles O27: the four branches of `encoderDirection`, compared as numbers. -/
theorem encoderDirectionFollowsItsRule : Obligations.EncoderDirectionFollowsItsRule := by
  intro old new hne
  have hval (b : Byte) (n : Nat) (hn : n < 256) : b = BitVec.ofNat 8 n ↔ b.toNat = n := by
    rw [← BitVec.toNat_inj, BitVec.toNat_ofNat, Nat.mod_eq_of_lt hn]
  rw [Ne, ← BitVec.toNat_inj] at hne
  simp only [encoderDirection, BitVec.lt_def, hval _ 0 (by decide), hval _ 15 (by decide)]
  split_ifs with hwrap hrise hfall
  · simp [hwrap]
  · simpa [hrise] using hwrap
  · simp [hfall]
  · simp [hrise, hfall]

end Sys2Proof.Machine
end

section
/-! PROOFS. Pad reports (43_decoder.md R160 to R162): the rule is the loop's closed form and the queue's commit, and an
event's velocity is read off the sample that produced it. -/

namespace Sys2Proof.Machine

theorem length_padEvents_le (s : State) (p : List Byte) : (padEvents s p).length ≤ 16 :=
  length_filterMap_range_le _ _

/-- Settles O29: the loop's closed form, then the commit or the overflow. -/
theorem padReportFollowsItsRule : Obligations.PadReportFollowsItsRule := by
  intro s p hr hlen
  refine ⟨rfl, ?_⟩
  obtain ⟨hact, hlast, hevs⟩ := scanSamples_spec s p
  have hcount : (padEvents s p).length < 256 := Nat.lt_of_le_of_lt (length_padEvents_le s p) (by decide)
  rw [exec_of_running hr, effect]
  rcases padReport_cases p s with ⟨hshort, -⟩ | ⟨-, hcases⟩
  · exact absurd hshort (Nat.not_lt.2 hlen)
  · rw [hact, hlast, hevs] at hcases
    exact next_of_commit_or_overflow hcount hcases

/-- The velocity of a sample is its value `>> 4`, which fits a byte (R160). -/
theorem toNat_velocity (value : BitVec 12) : (BitVec.ofNat 8 (value.toNat / 16)).toNat = value.toNat / 16 := by
  rw [BitVec.toNat_ofNat]
  exact Nat.mod_eq_of_lt (by have := value.isLt; omega)

/-- The event of a sample is a press over the threshold or a release at or under it (R160). -/
theorem padEventAt_eq_some {s : State} {p : List Byte} {j : Nat} {e : Event} (h : padEventAt s p j = some e) :
    (s.cfg.padThr < (sampleValue p j).toNat ∧
      e = .padChange (samplePad p j) (BitVec.ofNat 8 ((sampleValue p j).toNat / 16)) s.shift) ∨
    ((sampleValue p j).toNat ≤ s.cfg.padThr ∧ e = .padChange (samplePad p j) 0x00 s.shift) := by
  simp only [padEventAt] at h
  split at h
  · next hpress => exact .inl ⟨hpress.1, (Option.some.inj h).symm⟩
  · split at h
    · next hrelease => exact .inr ⟨hrelease.1, (Option.some.inj h).symm⟩
    · cases h

/-- What a pad report appends to the queue: nothing, or the events of its samples. -/
theorem evq_padReport (p : List Byte) (s : State) :
    (padReport p s).evq = s.evq ∨ (padReport p s).evq = s.evq ++ padEvents s p := by
  rcases padReport_cases p s with ⟨-, e⟩ | ⟨-, ⟨-, e⟩ | ⟨-, e⟩⟩ <;> rw [e]
  · exact .inl rfl
  · exact .inl rfl
  · exact .inr (congrArg _ (scanSamples_spec s p).2.2)

/-- Settles O30: an appended event is the event of some sample, and a value over the threshold gives its velocity. -/
theorem padVelocityIsInRange : Obligations.PadVelocityIsInRange := by
  intro s t p h e he
  obtain ⟨-, rfl⟩ := exec_eq_next.1 h
  rw [effect] at he
  rcases evq_padReport p s with hevq | hevq <;> rw [hevq] at he
  · simp at he
  · rw [List.drop_left, padEvents, List.mem_filterMap] at he
    obtain ⟨j, hj, hevent⟩ := he
    refine ⟨j, List.mem_range.1 hj, ?_⟩
    rcases padEventAt_eq_some hevent with ⟨hover, rfl⟩ | ⟨hunder, rfl⟩
    · have hv := toNat_velocity (sampleValue p j)
      refine ⟨_, rfl, .inl ⟨hover, hv, ?_, ?_, fun hthr hzero => ?_⟩⟩
      · rw [hv]; exact Nat.div_le_div_right hover
      · exact Nat.le_of_lt_succ (BitVec.isLt _)
      · rw [hzero, show (0x00 : Byte).toNat = 0 from rfl] at hv
        omega
    · exact ⟨_, rfl, .inr ⟨hunder, rfl⟩⟩

end Sys2Proof.Machine
end

section
/-! PROOFS. The event queue (43_decoder.md R165, R166): how many events one report appends, and POPEV. -/

namespace Sys2Proof.Machine

/-- A turn of the button loop appends at most one event, and the shift button's turn none (R151). -/
theorem length_evs_scanButton_le (cfg : Config) (p : List Byte) (w : ButtonScan) (i : Nat) :
    (scanButton cfg p w i).evs.length ≤ w.evs.length + if i = cfg.shiftIndex then 0 else 1 := by
  unfold scanButton
  split_ifs with hnone hsame hshift <;> simp

/-- The first `n` turns append at most `n` events, and one fewer once the shift button is among them. -/
theorem length_evs_foldl_scanButton_le (cfg : Config) (p : List Byte) (w : ButtonScan) (n : Nat) :
    ((List.range n).foldl (scanButton cfg p) w).evs.length + (if cfg.shiftIndex < n then 1 else 0) ≤
      w.evs.length + n := by
  induction n with
  | zero => simp
  | succ n ih =>
    rw [List.range_succ, List.foldl_append, List.foldl_cons, List.foldl_nil]
    have hturn := length_evs_scanButton_le cfg p ((List.range n).foldl (scanButton cfg p) w) n
    split_ifs at ih hturn ⊢ <;> omega

/-- The buttons of a checked configuration append at most 31 events. -/
theorem length_evs_scanButtons_le {s : State} (hc : configFailure s.cfg = none) (p : List Byte) :
    (scanButtons s p).evs.length ≤ 31 := by
  obtain ⟨hcount, hshift, -⟩ := buttons_of_config hc
  have hloop : (scanButtons s p).evs.length + (if s.cfg.shiftIndex < s.cfg.buttonCount then 1 else 0) ≤
      0 + s.cfg.buttonCount := length_evs_foldl_scanButton_le s.cfg p _ _
  rw [if_pos hshift] at hloop
  omega

theorem length_evq_buttonReport_le {s : State} (hc : configFailure s.cfg = none) (p : List Byte) :
    (buttonReport p s).evq.length ≤ s.evq.length + 32 := by
  rcases buttonReport_cases p s with ⟨-, e⟩ | ⟨-, evs, hevs, ⟨-, e⟩ | ⟨-, e⟩⟩ <;> rw [e]
  · exact Nat.le_add_right _ _
  · exact Nat.le_add_right _ _
  · have hbuttons := length_evs_scanButtons_le hc p
    have hturn := length_encoderEvents_le s.encLast (encoderRaw p) (scanButtons s p).shift
    simp only [hevs, List.length_append]
    omega

theorem length_evq_padReport_le (s : State) (p : List Byte) :
    (padReport p s).evq.length ≤ s.evq.length + 16 := by
  rcases evq_padReport p s with e | e <;> rw [e]
  · exact Nat.le_add_right _ _
  · have hpads := length_padEvents_le s p
    rw [List.length_append]
    omega

/-- Settles O31: the shift button's turn appends no event, which leaves room for the encoder's among 32. -/
theorem reportsAppendFewEvents : Obligations.ReportsAppendFewEvents := by
  intro s t p hc hq
  refine ⟨fun h => ⟨?_, (changes_of_exec h).2.queueInv hq⟩, fun h => ⟨?_, (changes_of_exec h).2.queueInv hq⟩⟩
  · obtain ⟨-, rfl⟩ := exec_eq_next.1 h
    exact length_evq_buttonReport_le hc p
  · obtain ⟨-, rfl⟩ := exec_eq_next.1 h
    exact length_evq_padReport_le s p

/-- Settles O33: the two cases of `popEvent`. -/
theorem popEventFollowsItsRule : Obligations.PopEventFollowsItsRule := by
  refine ⟨rfl, fun s hr => ?_⟩
  rw [exec_of_running hr, effect]
  rcases popEvent_cases s with ⟨hnil, e⟩ | ⟨e', rest', hcons, e⟩
  · exact ⟨fun _ => congrArg _ e, fun _ _ hcons => by simp [hnil] at hcons⟩
  · refine ⟨fun hnil => by simp [hcons] at hnil, fun e'' rest'' hcons' => ?_⟩
    obtain ⟨rfl, rfl⟩ := List.cons.inj (hcons.symm.trans hcons')
    exact congrArg _ e

end Sys2Proof.Machine
end

section
/-! PROOFS. Faults (60_exceptions.md R190 to R197): the bytes of their records, how one is entered, and that only a
reset leaves one. -/

namespace Sys2Proof.Machine

/-! ## Records -/

/-- A two-byte info field. -/
theorem infoField_two (n : Nat) (h : n < 65536) : infoField 2 n = [BitVec.ofNat 8 n, BitVec.ofNat 8 (n / 256)] := by
  rw [infoField_of_lt (by simpa using h)]; rfl

/-- A four-byte info field. -/
theorem infoField_four (n : Nat) (h : n < 2 ^ 32) : infoField 4 n =
    [BitVec.ofNat 8 n, BitVec.ofNat 8 (n / 256), BitVec.ofNat 8 (n / 65536), BitVec.ofNat 8 (n / 16777216)] := by
  rw [infoField_of_lt h]
  simp only [littleEndian, Nat.div_div_eq_div_mul, Nat.reduceMul]

/-- Settles O35: each record is its code before the info fields, which show every number that fits. -/
theorem faultRecordsFollowTheTable : Obligations.FaultRecordsFollowTheTable := by
  refine ⟨fun n hn => ?_, fun n hn => ?_, fun op => rfl, fun op n hn => ?_, fun w hw h hh => ?_, fun n hn => ?_⟩ <;>
    rw [BlockFault.record, BlockFault.info]
  · rw [infoField_four n hn]; rfl
  · rw [infoField_two n hn]; rfl
  · rw [infoField_two n hn]; rfl
  · rw [infoField_two w hw, infoField_two h hh]; rfl
  · rw [infoField_one n hn]; rfl

/-! ## Fault entry -/

theorem not_running_raise (f : BlockFault) (s : State) : ¬Running (raise f s) := f.code_ne_zero

/-- Of all changes of an instruction only fault entry writes `FAULT` (R195). -/
theorem Changes.raised_of_faulted {i : Instr} {s t : State} (h : Changes s i t) (hs : Running s) (ht : ¬Running t) :
    ∃ f, t = raise f s := by
  cases h with
  | raised _ f => exact ⟨f, rfl⟩
  | _ => exact absurd hs ht

/-- Settles O36: such an instruction ends in the fault entry all faults share. -/
theorem faultEntryWritesNothingElse : Obligations.FaultEntryWritesNothingElse := by
  intro i s t h ht
  obtain ⟨hs, hc⟩ := changes_of_exec h
  obtain ⟨f, rfl⟩ := hc.raised_of_faulted hs ht
  exact ⟨f.code_mem, f.info, raise_eq_faulted f s⟩

/-! ## The fault state -/

/-- Settles O37: every instruction has the fault precondition. -/
theorem faultedBlockPerformsNoInstruction : Obligations.FaultedBlockPerformsNoInstruction := by
  intro i s hf
  rw [exec_eq_performing, performing_of_faulted hf]

/-- The actions before the next reset are discarded (R230). -/
theorem afterNextReset_append {before : List HostAction} (h : ∀ n, HostAction.assertReset n ∉ before)
    (input : List HostAction) : afterNextReset (before ++ input) = afterNextReset input := by
  induction before with
  | nil => rfl
  | cons a before ih =>
    have htail := ih fun n hn => h n (List.mem_cons_of_mem a hn)
    cases a with
    | assertReset n => exact absurd List.mem_cons_self (h n)
    | _ => exact htail

theorem afterNextReset_of_no_reset {input : List HostAction} (h : ∀ n, HostAction.assertReset n ∉ input) :
    afterNextReset input = none := by
  simpa [afterNextReset] using afterNextReset_append h []

theorem step_of_faulted {s : State} (hf : ¬Running s) (hline : s.env.resetLine = false) : step s = stepFaulted s := by
  rw [step_of_released hline, if_neg hf]

/-- A faulted block whose host asserts reset later on: the step is that reset (R197). -/
theorem stepFaulted_of_reset {s : State} {rest : List HostAction} (h : afterNextReset s.env.input = some rest) :
    stepFaulted s = .next (performReset rest s) := by
  rw [stepFaulted, h]

/-- Settles O38: what the step of a faulted block finds in the host's actions decides it. -/
theorem onlyResetLeavesTheFaultState : Obligations.OnlyResetLeavesTheFaultState := by
  intro s hf hline
  rw [step_of_faulted hf hline]
  refine ⟨fun hno => ?_, fun before n after hin hbefore => stepFaulted_of_reset ?_⟩
  · rw [stepFaulted, afterNextReset_of_no_reset hno]
  · rw [hin, afterNextReset_append hbefore]; rfl

end Sys2Proof.Machine
end

section
/-! PROOFS. The host's ticks (60_exceptions.md R214 to R219): the start of each stage, then the reads of ReadInput, one
equation for each thing a read can be. -/

namespace Sys2Proof.Machine

/-! ## The start of a tick -/

/-- With no fault, reset released and no stage in progress a step takes the host's next action. -/
theorem step_of_action {s : State} {a : HostAction} {rest : List HostAction} (hrun : Running s)
    (hline : s.env.resetLine = false) (hread : s.host.reading = none) (hin : s.env.input = a :: rest) :
    step s = stepAction a (withInput s rest) := by
  rw [step_of_released hline, if_pos hrun]
  simp only [stepRunning, hread, hin, withInput]

theorem endTick_done (s : State) : endTick .done s = ticked s s.host.phase.following .done := rfl

theorem endTick_transportError (s : State) : endTick .transportError s = ticked s s.host.phase .transportError := rfl

/-- A FLUSH that records no fault answers one response byte (R142). -/
theorem resp_flushFrame {s : State} (h : Running (flushFrame s)) : ∃ b, (flushFrame s).resp = s.resp ++ [[b]] := by
  rcases flushFrame_cases s with ⟨-, e⟩ | ⟨-, -, e⟩ | ⟨-, -, e⟩
  · exact absurd (e ▸ h) (not_running_raise _ s)
  · exact ⟨0x00, congrArg State.resp e⟩
  · obtain ⟨_, b, _, _, _, hsent, -⟩ := sendChunks_frame [0, 1, 2, 3] s
    exact ⟨b, congrArg State.resp (e.trans hsent)⟩

/-- The top bit of a response byte tells a refused message (R87). -/
theorem getLsbD_seven (b : Byte) : b.getLsbD 7 = decide (0x80 ≤ b.toNat) := BitVec.msb_eq_decide b

/-- A FLUSH's one response byte ends the SendFrame tick (R215, R219). -/
theorem endSendFrame_singleton {t : State} (b : Byte) (hphase : t.host.phase = .sendFrame) : endSendFrame [[b]] t =
    if 0x80 ≤ b.toNat then ticked t .sendFrame .transportError else ticked t .sendLeds .done := by
  simp only [endSendFrame, List.headD_cons, getLsbD_seven, decide_eq_true_eq]
  split
  · rw [endTick_transportError, hphase]
  · rw [endTick_done, hphase]; rfl

/-- Settles O54: FLUSH keeps the phase, so its response alone decides where the tick ends. -/
theorem sendFrameTickFlushes : Obligations.SendFrameTickFlushes := by
  intro s t rest hrun hline hread hphase hin hflush ht
  have hkeep : t.host = s.host := (changes_of_exec hflush).2.cfg_host.2
  obtain ⟨-, rfl⟩ := exec_eq_next.1 hflush
  obtain ⟨b, hresp⟩ := resp_flushFrame ht
  refine ⟨b, hresp, ?_⟩
  rw [← endSendFrame_singleton b (hkeep ▸ hphase), step_of_action hrun hline hread hin, stepAction, stepTick]
  simp only [withInput_host, hphase, hflush, andThen]
  rw [effect, hresp, List.drop_left]

/-- Settles O55: neither stage performs anything of the block. -/
theorem otherTicksAdvance : Obligations.OtherTicksAdvance := by
  intro s rest hrun hline hread hin
  rw [step_of_action hrun hline hread hin, stepAction, stepTick]
  refine ⟨fun hphase => ?_, fun hphase => ?_⟩
  · simp only [withInput_host, hphase, endTick_done, Phase.following]
  · simp only [withInput_host, hphase]

/-! ## One read -/

theorem drawRead_eq (s : State) : drawRead s = (nextRead s, readTaken s) :=
  Prod.ext (drawRead_spec s).1 rfl

/-- Taking a read touches only the transport's answers (R218). -/
theorem readTaken_eq (s : State) : ∃ reads draws,
    readTaken s = { s with env := { s.env with reads := reads, readDraws := draws } } :=
  (drawRead_spec s).2

@[simp] theorem readTaken_cfg (s : State) : (readTaken s).cfg = s.cfg := by
  obtain ⟨_, _, e⟩ := readTaken_eq s
  rw [e]

@[simp] theorem readTaken_fault (s : State) : (readTaken s).fault = s.fault := by
  obtain ⟨_, _, e⟩ := readTaken_eq s
  rw [e]

@[simp] theorem readTaken_err (s : State) : (readTaken s).err = s.err := by
  obtain ⟨_, _, e⟩ := readTaken_eq s
  rw [e]

@[simp] theorem readTaken_host (s : State) : (readTaken s).host = s.host := by
  obtain ⟨_, _, e⟩ := readTaken_eq s
  rw [e]

@[simp] theorem readTaken_input (s : State) : (readTaken s).env.input = s.env.input := by
  obtain ⟨_, _, e⟩ := readTaken_eq s
  rw [e]

theorem afterReport_nil (i : Nat) (s : State) :
    afterReport i [] s = { s with host := { s.host with reading := some (i + 1) } } := rfl

theorem afterReport_singleton {s : State} (i : Nat) (r : Record) (h : Running s) :
    afterReport i [r] s = ticked s s.host.phase (.invalidReport r) := if_pos h

section
variable {s : State} {i : Nat} {b : Byte} {bs : List Byte}

/-- A read that returns bytes is dropped only if it is a pad report at an unsampled index (R217). -/
theorem delivers_eq_false_iff {cfg : Config} :
    delivers cfg i (b :: bs) = false ↔ b = 0x20 ∧ i % cfg.padN.val ≠ 0 := by
  simp [delivers]

theorem stepRead_of_le (hi : 32 ≤ i) : stepRead i s = .next (endTick .done s) := if_pos hi

theorem stepRead_of_error (hi : i < 32) (h : nextRead s = .error) :
    stepRead i s = .next (endTick .transportError (readTaken s)) := by
  simp only [stepRead, readsPerTick, Nat.not_le.2 hi, if_false, drawRead_eq, h]

theorem stepRead_of_empty (hi : i < 32) (h : nextRead s = .bytes []) :
    stepRead i s = .next (endTick .done (readTaken s)) := by
  simp only [stepRead, readsPerTick, Nat.not_le.2 hi, if_false, drawRead_eq, h]

theorem stepRead_of_dropped (hi : i < 32) (h : nextRead s = .bytes (b :: bs))
    (hd : delivers s.cfg i (b :: bs) = false) :
    stepRead i s = .next { readTaken s with host := { s.host with reading := some (i + 1) } } := by
  simp [stepRead, readsPerTick, Nat.not_le.2 hi, drawRead_eq, h, hd]

/-- A delivered read is performed as a report, and the records it put on `ERR` decide how the stage goes on (R217). -/
theorem stepRead_of_delivered {t : State} (hi : i < 32) (h : nextRead s = .bytes (b :: bs))
    (hd : delivers s.cfg i (b :: bs) = true) (ht : exec (decodeReport (b :: bs)) (readTaken s) = .next t) :
    stepRead i s = .next (afterReport i (t.err.drop s.err.length) t) := by
  have hitem : performItem (.report (b :: bs)) (readTaken s) = .next t := ht
  simp [stepRead, readsPerTick, Nat.not_le.2 hi, drawRead_eq, h, hd, hitem, andThen]

end

/-- Settles O56: each clause is one equation of `stepRead`, with the phase following ReadInput or kept. -/
theorem readStageEnds : Obligations.ReadStageEnds := by
  intro s i hreading hphase
  rw [step_of_reading hreading, ← nextRead_counted]
  refine ⟨fun hi => ?_, fun hi h => ?_, fun hi h => ?_⟩
  · rw [stepRead_of_le hi, endTick_done, counted_host, hphase]; rfl
  · rw [stepRead_of_empty hi h, endTick_done, readTaken_host, counted_host, hphase]; rfl
  · rw [stepRead_of_error hi h, endTick_transportError, readTaken_host, counted_host, hphase]

/-- Settles O57: a report keeps the sequencer, and what it put on `ERR` decides how the stage goes on. -/
theorem readsAreDeliveredOrDropped : Obligations.ReadsAreDeliveredOrDropped := by
  intro s i b bs hreading hi hread
  rw [← nextRead_counted] at hread
  rw [step_of_reading hreading]
  refine ⟨fun hb hn => ?_, fun hb => ?_⟩
  · exact stepRead_of_dropped hi hread (delivers_eq_false_iff.2 ⟨hb, hn⟩)
  · have hd : delivers s.cfg i (b :: bs) = true := by
      rw [← Bool.not_eq_false, delivers_eq_false_iff]; tauto
    have hrun : Running (readTaken (counted s)) := (readTaken_fault _).trans hreading.1
    obtain ⟨t, ht⟩ : ∃ t, exec (decodeReport (b :: bs)) (readTaken (counted s)) = .next t :=
      ⟨_, exec_of_running hrun _⟩
    have hhost : t.host = s.host := by rw [(changes_of_exec ht).2.cfg_host.2, readTaken_host, counted_host]
    rw [stepRead_of_delivered hi hread hd ht, counted_err]
    refine ⟨t, ht, fun _ herr => ?_, fun hrun' r herr => ?_⟩
    · have hnone : t.err.drop s.err.length = [] := by rw [herr, List.drop_length]
      rw [hnone, afterReport_nil, hhost]
    · have hone : t.err.drop s.err.length = [r] := by rw [herr, List.drop_left]
      rw [hone, afterReport_singleton i r hrun', hhost]

/-! ## The phase -/

/-- The sequencer changes its phase only at the end of a completed stage (R214, R219). -/
theorem SequencerMoves.phase_ne {old new : Sequencer} (h : SequencerMoves old new) (hne : new.phase ≠ old.phase) :
    new.lastTick = some .done ∧ new.reading = none ∧ new.phase = old.phase.following := by
  rcases h with rfl | ⟨k, -, -, rfl⟩ | ⟨r, rfl⟩ | ⟨-, rfl⟩
  · exact absurd rfl hne
  · exact absurd rfl hne
  · by_cases hr : r = .done
    · subst hr; exact ⟨rfl, rfl, rfl⟩
    · exact absurd (if_neg hr) hne
  · exact absurd rfl hne

/-- Settles O58, by the inversion of a step. -/
theorem phaseAdvancesOnlyOnCompletion : Obligations.PhaseAdvancesOnlyOnCompletion := by
  intro s t h hne
  cases steps_of_step h with
  | item env i u t hu hr ht =>
    obtain ⟨env', host', rfl, hmove⟩ := ht
    exact .inl (hmove.phase_ne hne)
  | env env => exact absurd rfl hne
  | reset rest => exact .inr ⟨rest, rfl⟩

end Sys2Proof.Machine
end

section
/-! PROOFS. Reset at any time (70_reset_and_hazards.md R220, R230): with no stage in progress it is the next step, and
every read of a stage brings it one nearer, whatever the read answers. -/

namespace Sys2Proof.Machine

theorem step_of_resetLine {s : State} (h : s.env.resetLine = true) : step s = stepInReset s := if_pos h

/-- No read is to come, or the block is about to make one (R217). -/
theorem idle_or_reading (s : State) : (s.env.resetLine = true ∨ ¬Running s ∨ s.host.reading = none) ∨
    (Running s ∧ s.env.resetLine = false ∧ ∃ i, s.host.reading = some i) := by
  cases hline : s.env.resetLine with
  | true => exact .inl (.inl rfl)
  | false =>
    by_cases hrun : Running s
    · cases hread : s.host.reading with
      | none => exact .inl (.inr (.inr rfl))
      | some i => exact .inr ⟨hrun, rfl, i, rfl⟩
    · exact .inl (.inr (.inl hrun))

/-- Where no stage is in progress a reset waits for nothing, whatever its count (R230). -/
theorem step_of_reset_idle {s : State} {n : Nat} {rest : List HostAction} (hin : s.env.input = .assertReset n :: rest)
    (h : s.env.resetLine = true ∨ ¬Running s ∨ s.host.reading = none) : step s = .next (performReset rest s) := by
  cases hline : s.env.resetLine with
  | true => simp only [step_of_resetLine hline, stepInReset, hin]
  | false =>
    by_cases hrun : Running s
    · have hread : s.host.reading = none := by simpa [hline, hrun] using h
      rw [step_of_action hrun hline hread hin]; rfl
    · rw [step_of_faulted hrun hline]
      exact stepFaulted_of_reset (by rw [hin]; rfl)

/-- A reset asserted now is the next step of every state, before a read of a stage too (R220, R230). -/
theorem step_of_reset_now {s : State} {rest : List HostAction} (hin : s.env.input = .assertReset 0 :: rest) :
    step s = .next (performReset rest s) := by
  rcases idle_or_reading s with h | ⟨hrun, hline, i, hread⟩
  · exact step_of_reset_idle hin h
  · rw [step_of_released hline, if_pos hrun]
    simp only [stepRunning, hread, underway, hin]

/-- Settles O50: a reset now is the step, alone or behind a drain's next POPEV. -/
theorem resetIsPossibleAtAnyTime : Obligations.ResetIsPossibleAtAnyTime := by
  refine fun s rest => ⟨step_of_reset_now rfl, fun hrun hline hread => ?_, fun h n => step_of_reset_idle rfl h,
    fun hline => ?_⟩
  · exact step_of_draining_reset (s := withInput s (.drain :: .assertReset 0 :: rest)) ⟨hrun, hline, hread, rfl⟩
  · exact step_of_resetLine (s := withInput s (.releaseReset :: rest)) hline

/-! ## A reset that waits for reads -/

@[simp] theorem afterReport_env (i : Nat) (errors : List Record) (s : State) :
    (afterReport i errors s).env = s.env := by
  unfold afterReport
  split
  · split <;> rfl
  · rfl

/-- Whatever a read answers, the stage goes on to a next state, and the host's actions stay as they are. -/
theorem stepRead_next {s : State} (hrun : Running s) (i : Nat) :
    ∃ t, stepRead i s = .next t ∧ t.env.input = s.env.input := by
  by_cases hi : 32 ≤ i
  · exact ⟨_, stepRead_of_le hi, rfl⟩
  have hlt := Nat.lt_of_not_le hi
  match h : nextRead s with
  | .error => exact ⟨_, stepRead_of_error hlt h, readTaken_input s⟩
  | .bytes [] => exact ⟨_, stepRead_of_empty hlt h, readTaken_input s⟩
  | .bytes (b :: bs) =>
    cases hd : delivers s.cfg i (b :: bs) with
    | false => exact ⟨_, stepRead_of_dropped hlt h hd, readTaken_input s⟩
    | true =>
      have ht := exec_of_running ((readTaken_fault s).trans hrun) (decodeReport (b :: bs))
      refine ⟨_, stepRead_of_delivered hlt h hd ht, ?_⟩
      rw [afterReport_env, (changes_of_exec ht).2.input, readTaken_input]

/-- A run begins with its first step. -/
theorem run_succ_of_step {M : Host.Core} {s t : M.State} (h : M.step s = .next t) (k : Nat) :
    M.run (k + 1) s = M.run k t := by
  rw [Host.Core.run, h]

/-- Settles O51: by induction on the count, as each read of a stage in progress brings the reset one nearer. -/
theorem noStagePutsResetOff : Obligations.NoStagePutsResetOff := by
  intro n
  induction n with
  | zero => exact fun s rest hin => ⟨0, le_rfl, s, rfl, (run_succ_of_next rfl).trans (step_of_reset_now hin)⟩
  | succ n ih =>
    intro s rest hin
    rcases idle_or_reading s with h | ⟨hrun, hline, i, hread⟩
    · exact ⟨0, Nat.zero_le _, s, rfl, (run_succ_of_next rfl).trans (step_of_reset_idle hin h)⟩
    · have hreading : Reading s i := ⟨hrun, hline, hread, by rw [hin]; rfl⟩
      obtain ⟨u, hu, hinput⟩ := stepRead_next (s := counted s) hrun i
      rw [counted_input, hin, countDown_reset] at hinput
      have hstep : core.step s = .next u := (step_of_reading hreading).trans hu
      obtain ⟨k, hk, t, hrunk, hreset⟩ := ih u rest hinput
      exact ⟨k + 1, Nat.succ_le_succ hk, t, (run_succ_of_step hstep k).trans hrunk,
        (run_succ_of_step hstep (k + 1)).trans hreset⟩

end Sys2Proof.Machine
end

section
/-! PROOFS. What reset checks and what it leaves (70_reset_and_hazards.md R230, R232, R234): the search of the
constraint table stops at the first entry that fails, and while reset is asserted only the reset input acts. -/

namespace Sys2Proof.Machine

/-! ## The constraints of R232 in the spec's words -/

theorem imageCheck_iff (cfg : Config) :
    (cfg.initImage.all fun image => decide (image.length = frameLength cfg)) = true ↔
      ∀ image, cfg.initImage = some image → image.length = cfg.width * cfg.height / 8 := by
  simp only [Option.all_eq_true, decide_eq_true_iff]
  rfl

theorem fontCheck_iff (cfg : Config) :
    (decide (cfg.font.length = 96) && cfg.font.all fun g => decide (g.length = glyphWidth)) = true ↔
      cfg.font.length = 96 ∧ ∀ g ∈ cfg.font, g.length = 5 := by
  simp only [Bool.and_eq_true, List.all_eq_true, decide_eq_true_iff]
  rfl

theorem buttonsCheck_iff (cfg : Config) :
    (decide (cfg.buttonCount ≤ 32 ∧ cfg.shiftIndex < cfg.buttonCount ∧ cfg.noneIndex ≠ some cfg.shiftIndex) &&
      cfg.noneIndex.all fun n => decide (n < cfg.buttonCount)) = true ↔
      cfg.buttonCount ≤ 32 ∧ cfg.shiftIndex < cfg.buttonCount ∧
        (∀ n, cfg.noneIndex = some n → n < cfg.buttonCount) ∧ cfg.noneIndex ≠ some cfg.shiftIndex := by
  simp only [Bool.and_eq_true, Option.all_eq_true, decide_eq_true_iff, and_assoc]
  rw [and_comm (a := cfg.noneIndex ≠ some cfg.shiftIndex)]

/-! ## What the check records -/

theorem raisesConfig_of_configFailure {cfg : Config} {reason : Byte} (h : configFailure cfg = some reason) :
    RaisesConfig cfg reason :=
  (resetValues_initial cfg _).failed reason h

theorem initial_records_nothing_of_passes {cfg : Config} (h : configFailure cfg = none) :
    Running (State.initial cfg) ∧ (State.initial cfg).err = [] :=
  (resetValues_initial cfg _).passed h

/-- Settles O53: the table of the check lists the constraints in order, and the search stops at the first that
fails. -/
theorem configurationIsCheckedInOrder : Obligations.ConfigurationIsCheckedInOrder := by
  classical
  intro cfg c1 c2 c3 c4 c5 c6 c7 c8 h1 h2 h3 h4 h5 h6 h7 h8
  have htable : configChecks cfg = [(0x01, decide c1), (0x02, decide c2), (0x03, decide c3), (0x04, decide c4),
      (0x05, decide c5), (0x06, decide c6), (0x07, decide c7), (0x08, decide c8)] := by
    simp only [configChecks, h1, h2, h3, h4, h5, h6, h7, h8, ← imageCheck_iff, ← fontCheck_iff,
      ← buttonsCheck_iff, Bool.decide_eq_true]
  clear h1 h2 h3 h4 h5 h6 h7 h8
  refine ⟨?_, ?_, ?_, ?_, ?_, ?_, ?_, ?_, ?_⟩
  case refine_9 =>
    intros
    exact initial_records_nothing_of_passes (by simp [configFailure, *])
  -- In each clause the search passes over the constraints assumed to hold and stops at the one assumed to fail.
  all_goals
    intros
    exact raisesConfig_of_configFailure (by simp [configFailure, *])

/-- Settles O39: reset is asserted, and an item is none of the actions of the reset input. -/
theorem itemDuringResetIsRejected : Obligations.ItemDuringResetIsRejected := by
  intro s item rest hline hin
  rw [step_of_resetLine hline]
  simp only [stepInReset, hin]

/-- Settles O48: `State.reset` is the initial state of one configuration. -/
theorem resetMeetsTheInvariant : Obligations.ResetMeetsTheInvariant :=
  ⟨inv_initial hardwareConfig, inv_initial⟩

end Sys2Proof.Machine
end
